-- ==== Sys2Proof/Word.lean ====
section
/-! DEFINITION. The word types of the uuid47 codec block: bytes, 64-bit SipHash words and fixed-length byte sequences. -/

namespace Sys2Proof

/-- One byte; bit 7 is the most significant (rule R9). -/
abbrev Byte := BitVec 8

/-- A 64-bit unsigned word of the PRF core (rule R140). -/
abbrev Word64 := BitVec 64

/-- A byte sequence of fixed length, element 0 first (rule R10). -/
abbrev Bytes (n : Nat) := Vector Byte n

end Sys2Proof
end

