-- ==== Sys2Proof/Syntax.lean ====
section
/-! DEFINITION. The command set uuid47-cmd revision 1 (rules R2, R80 to R84): one constructor per row of the opcode table. -/

namespace Sys2Proof

/-- The block's commands. Their operands are implicit (rule R83), so no constructor has a field. -/
inductive Instr where
  /-- ENCODE, command byte 0x01 (rules R81, R170). -/
  | encode
  /-- DECODE, command byte 0x02 (rules R81, R171). -/
  | decode
  deriving DecidableEq, Repr

end Sys2Proof
end

