-- ==== Sys2Proof/Config.lean ====
section
/-! DEFINITION. What an instance of the block fixes when it is built: `strictVersion`, `PRF`, `BASE` and `LATENCY` (rules R5 to R8, R36). -/

namespace Sys2Proof

/-- The type of the configuration function `PRF : Bytes16 -> List Byte -> Bytes8` (rule R6). -/
abbrev Prf := Bytes 16 → List Byte → Bytes 8

/-- Which PRF an instance was built with (rule R6). `reference` is SipHash-2-4 (rule R150);
`other n` is any other keyed function, of which nothing is known. -/
inductive PrfSel where
  | reference
  | other (n : Nat)
  deriving DecidableEq, Repr

/-- The parameters of one instance (rules R5 to R8). They are plain data, so that a statement over
all of them covers every instance. -/
structure Config where
  /-- `strictVersion`: do ENCODE and DECODE check the version nibble (rule R5)? -/
  strictVersion : Bool
  /-- `PRF` (rule R6). -/
  prf : PrfSel
  /-- `BASE`: the host address of window offset 0x00 (rule R7). -/
  base : Nat
  /-- `LATENCY`: the ticks from a CMD write to its results (rule R8). Only `Machine/Latency.lean` reads it. -/
  latency : Nat
  deriving DecidableEq, Repr

/-- The uninterpreted PRFs (rule R6: "A model may take `PRF` as an uninterpreted function").
No body: what is proved of an instance with one of them holds for every PRF. -/
opaque Config.otherPrf : Nat → Prf

/-- The reference configuration (rule R5 and the glossary): not strict, SipHash-2-4. DESIGN CHOICE
(log entry 2): `BASE` and `LATENCY`, which the spec leaves open, are 0 in it. -/
def Config.reference : Config := { strictVersion := false, prf := .reference, base := 0, latency := 0 }

end Sys2Proof
end

