-- ==== Sys2Proof/Machine/State.lean ====
section
/-! DEFINITION. The state of the machine: the block's registers (rules R22, R38), its fixed configuration (rule R36), and the two
things that stand for the world outside: the accesses still to come and the bytes the host has read. -/

namespace Sys2Proof.Machine

/-- One access of a host to the register window (rule R66). -/
inductive HostOp where
  /-- `MemRead(BASE + off, 1)`. -/
  | rd (off : Byte)
  /-- `MemWrite(BASE + off, 1, v)`. -/
  | wr (off v : Byte)
  /-- An access of `n` bytes, `n` other than 1 (rule R52). -/
  | wide (off : Byte) (n : Nat)
  deriving DecidableEq, Repr

/-- What can happen to the block: an access of some host, or reset (rule R21). -/
inductive Event where
  | access (op : HostOp)
  /-- The external reset (rule R230). -/
  | reset
  deriving DecidableEq, Repr

/-- The block's registers: exactly the state record of rule R38. STATUS.BUSY is not state (rule R32);
CMD has no storage (rule R34); BLOCK_ID, BLOCK_REV and CONFIG are constants (rules R26 to R28). -/
structure BlockState where
  /-- KEY (rule R23). -/
  key : Bytes 16
  /-- KEY_LEN (rule R24). -/
  keyLen : Byte
  /-- ID_IN (rule R25). -/
  idIn : Bytes 16
  /-- ID_OUT (rule R29). -/
  idOut : Bytes 16
  /-- STATUS.VALID (rule R31). -/
  valid : Bool
  /-- STATUS.ERR (rule R33). -/
  err : BitVec 4
  deriving DecidableEq, Repr

/-- The machine. -/
structure State where
  /-- The block's registers. -/
  block : BlockState
  /-- The instance's parameters, which no step changes (rule R36; log entry 1). -/
  config : Config
  /-- The accesses of all hosts, and resets, still to come, in their one total order (rule R60; log entry 3). -/
  pending : List Event
  /-- The bytes the reads have returned, oldest first: the host's observation (rules R66, R245; log entry 4). -/
  reads : List Byte
  deriving DecidableEq, Repr

/-- The reasons a step could stop with a fault. There is none: "The block defines no fault" (rule R66).
Every error a command detects is written to STATUS (rule R200). -/
inductive Fault
  deriving DecidableEq, Repr

/-- The reasons a step is refused. -/
inductive Refusal where
  /-- An instruction without a meaning. No arm of `exec` raises it: both commands have theirs. Safe. -/
  | notModelled (mnemonic : String)
  /-- A host access of `n` bytes, `n` other than 1, at `off`. Raised by `hostStep`; rule R52 asks for it. Safe. -/
  | wideAccess (off : Byte) (n : Nat)
  deriving DecidableEq, Repr

/-- Every register at its reset value (rule R230). -/
def BlockState.reset : BlockState where
  key := Vector.replicate 16 0#8
  keyLen := 0x00#8
  idIn := Vector.replicate 16 0#8
  idOut := Vector.replicate 16 0#8
  valid := false
  err := 0x0#4

/-- An instance with configuration `c` right after reset, waiting for host accesses (rule R231). -/
def State.resetWith (c : Config) : State where
  block := BlockState.reset
  config := c
  pending := []
  reads := []

/-- The reference instance right after reset (rules R5, R230). -/
def State.reset : State := State.resetWith Config.reference

end Sys2Proof.Machine
end

