-- ==== Sys2Proof/WellFormed.lean ====
section
/-! DEFINITION. Which commands, host accesses and test-script words are well formed. -/

namespace Sys2Proof

/-- Every command is well formed: it has no register fields, immediates or mode bits (rules R80, R83). -/
def Instr.wellFormed : Instr → Bool
  | .encode => true
  | .decode => true

/-- `wide` stands for an access of a width other than 1 (rule R66); a one-byte access is `rd` or `wr`. -/
def HostOp.wellFormed : Machine.HostOp → Bool
  | .rd _ => true
  | .wr _ _ => true
  | .wide _ n => n != 1

/-- A transaction word has 17 bits, and its DATA field is 0 for a read (rule R85). -/
def txWordWellFormed (w : Nat) : Bool :=
  w < 2 ^ 17 && (w.testBit 16 || w % 2 ^ 8 == 0)

end Sys2Proof
end

