-- ==== Sys2Proof/Decode.lean ====
section
/-! DEFINITION. Command bytes to commands and back (rules R80 to R84, opcode_table.json). -/

namespace Sys2Proof

/-- Why bytes are not a command. -/
inductive DecodeError where
  /-- A byte that is no opcode (rule R82). -/
  | illegalCommand (c : Byte)
  /-- No byte at all; a command is one byte long (rule R80). -/
  | noByte
  deriving DecidableEq, Repr

/-- A row of the opcode map (rule R81): `c` is this command when `c & mask = pattern`. -/
structure OpcodeRow where
  mask : Byte
  pattern : Byte
  instr : Instr
  deriving DecidableEq, Repr

/-- The opcode map of rule R81. -/
def opcodeTable : List OpcodeRow :=
  [ { mask := 0xFF#8, pattern := 0x01#8, instr := .encode },
    { mask := 0xFF#8, pattern := 0x02#8, instr := .decode } ]

/-- The command a byte written to CMD encodes (rule R81); every other byte is rejected (rule R82). -/
def decodeByte (c : Byte) : Except DecodeError Instr :=
  match opcodeTable.find? (fun r => c &&& r.mask == r.pattern) with
  | some r => .ok r.instr
  | none => .error (.illegalCommand c)

/-- Decode the first command of a byte sequence: always one byte (rules R80, R84). -/
def decode : List Byte → Except DecodeError (Instr × List Byte)
  | [] => .error .noByte
  | c :: rest =>
    match decodeByte c with
    | .ok i => .ok (i, rest)
    | .error e => .error e

/-- The command byte of a command (rule R81). -/
def encodeByte : Instr → Byte
  | .encode => 0b00000001#8
  | .decode => 0b00000010#8

/-- The bytes of a command: one (rule R80). -/
def encode (i : Instr) : List Byte := [encodeByte i]

/-- The byte of an instruction given as `nbits` bits `w`. Bits from `nbits` on are 0; bits from 8 on belong to no
command, because every command is exactly one byte (rule R80). -/
def tableByte (nbits w : Nat) : Byte := BitVec.ofNat 8 (w % 2 ^ nbits)

/-- What the decoder reads from the `nbits` bits `w` of an opcode-table row. -/
def decodeTableWord (nbits w : Nat) : Option Instr :=
  match decode [tableByte nbits w] with
  | .ok (i, _) => some i
  | .error _ => none

end Sys2Proof
end

