-- ==== Sys2Proof/Machine/Bytes.lean ====
section
/-! DEFINITION. Byte sequences: sub-sequences, reversal, byte-wise exclusive-or, and the two readings of a sequence as a number
(rules R10 to R12). -/

namespace Sys2Proof.Machine

/-- `u[lo .. lo+len-1]` (rule R10). -/
def slice {n : Nat} (u : Bytes n) (lo len : Nat) (h : lo + len ≤ n := by omega) : Bytes len :=
  Vector.ofFn fun i => u[lo + i.val]

/-- `rev(s)`: the elements in reverse order (rule R10). -/
def rev {n : Nat} (s : Bytes n) : Bytes n :=
  Vector.ofFn fun i => s[n - 1 - i.val]

/-- `a ^ b`, element by element (rule R12). -/
def xorBytes {n : Nat} (a b : Bytes n) : Bytes n :=
  Vector.ofFn fun i => a[i] ^^^ b[i]

/-- `be(s)`: byte 0 is the most significant (rule R11). -/
def be : List Byte → Nat
  | [] => 0
  | b :: s => b.toNat * 2 ^ (8 * s.length) + be s

/-- `le(s)`: byte 0 is the least significant (rule R11). -/
def le : List Byte → Nat
  | [] => 0
  | b :: s => b.toNat + 2 ^ 8 * le s

/-- `be_bytes_n(v)` (rule R11). -/
def beBytes (n v : Nat) : Bytes n :=
  Vector.ofFn fun i => BitVec.ofNat 8 (v / 2 ^ (8 * (n - 1 - i.val)))

/-- `le_bytes_n(v)` (rule R11). -/
def leBytes (n v : Nat) : Bytes n :=
  Vector.ofFn fun i => BitVec.ofNat 8 (v / 2 ^ (8 * i.val))

end Sys2Proof.Machine
end

