-- ==== Sys2Proof/Machine/Fields.lean ====
section
/-! DEFINITION. The field extractor, the message formatter, the timestamp masker and the control-bit rewriter (rules R100 to R108). -/

namespace Sys2Proof.Machine

/-- `Ts(u)`: bytes 0 to 5 (rule R101). -/
def ts (u : Bytes 16) : Bytes 6 := slice u 0 6

/-- `ts48(u) = be(u[0..5])` (rule R101). -/
def ts48 (u : Bytes 16) : Nat := be (ts u).toList

/-- `Ver(u) = u[6][7:4]` (rule R102). -/
def ver (u : Bytes 16) : BitVec 4 := u[6].extractLsb' 4 4

/-- `Var(u) = u[8][7:6]` (rule R103). -/
def var (u : Bytes 16) : BitVec 2 := u[8].extractLsb' 6 2

/-- `Free(u)`: the 74 free bits, most significant first (rule R104). -/
def free (u : Bytes 16) : BitVec 74 :=
  (u[6].extractLsb' 0 4 ++ u[7] ++ u[8].extractLsb' 0 6 ++
    u[9] ++ u[10] ++ u[11] ++ u[12] ++ u[13] ++ u[14] ++ u[15]).cast rfl

/-- `FormatMsg(u)`: the 10-byte PRF message (rule R105). -/
def formatMsg (u : Bytes 16) : Bytes 10 :=
  Vector.ofFn fun i =>
    if i.val = 0 then u[6] &&& 0x0F#8
    else if i.val = 1 then u[7]
    else if i.val = 2 then u[8] &&& 0x3F#8
    else u[6 + i.val]

/-- `XorTs(u, k6)`: six independent byte lanes (rule R107). -/
def xorTs (u : Bytes 16) (k6 : Bytes 6) : Bytes 16 :=
  Vector.ofFn fun i => if h : i.val < 6 then u[i] ^^^ k6[i.val] else u[i]

/-- `SetVV(u, v)`: version `v`, variant `10`, every other bit as it was (rule R108). -/
def setVV (u : Bytes 16) (v : BitVec 4) : Bytes 16 :=
  Vector.ofFn fun i =>
    if i.val = 6 then (v.setWidth 8 <<< 4) ||| (u[i] &&& 0x0F#8)
    else if i.val = 8 then 0x80#8 ||| (u[i] &&& 0x3F#8)
    else u[i]

end Sys2Proof.Machine
end

