-- ==== Sys2Proof/Machine/Prf.lean ====
section
/-! DEFINITION. The PRF core: SipHash-2-4, the reference instantiation of `PRF` (rules R140 to R150). -/

namespace Sys2Proof.Machine

/-- The four words SipHash mixes. They exist only inside one command (rule R35). -/
structure SipState where
  v0 : Word64
  v1 : Word64
  v2 : Word64
  v3 : Word64
  deriving DecidableEq, Repr

/-- `rotl(x, r)` (rule R140). -/
def rotl (x : Word64) (r : Nat) : Word64 := (x <<< r) ||| (x >>> (64 - r))

/-- The initial state (rule R142). -/
def sipInit (k0 k1 : Word64) : SipState where
  v0 := k0 ^^^ 0x736f6d6570736575#64
  v1 := k1 ^^^ 0x646f72616e646f6d#64
  v2 := k0 ^^^ 0x6c7967656e657261#64
  v3 := k1 ^^^ 0x7465646279746573#64

/-- SipRound (rule R143), its fourteen assignments in the rule's order. -/
def sipRound (s : SipState) : SipState :=
  let v0 := s.v0 + s.v1
  let v1 := rotl s.v1 13
  let v1 := v1 ^^^ v0
  let v0 := rotl v0 32
  let v2 := s.v2 + s.v3
  let v3 := rotl s.v3 16
  let v3 := v3 ^^^ v2
  let v0 := v0 + v3
  let v3 := rotl v3 21
  let v3 := v3 ^^^ v0
  let v2 := v2 + v1
  let v1 := rotl v1 17
  let v1 := v1 ^^^ v2
  let v2 := rotl v2 32
  { v0 := v0, v1 := v1, v2 := v2, v3 := v3 }

/-- The little-endian word of up to 8 bytes (rules R141, R144). -/
def leWord (s : List Byte) : Word64 := BitVec.ofNat 64 (le s)

/-- The message words `m_0 .. m_(w-1)`, `w = floor(n / 8)` (rule R144). -/
def sipWords (msg : List Byte) : List Word64 :=
  (List.range (msg.length / 8)).map fun j => leWord ((msg.drop (8 * j)).take 8)

/-- The final word `b`: the length mod 256 on top of the tail (rule R145). -/
def sipLastWord (msg : List Byte) : Word64 :=
  (BitVec.ofNat 64 (msg.length % 256) <<< 56) ||| leWord (msg.drop (8 * (msg.length / 8)))

/-- Compression of one word: 2 rounds (rule R146). -/
def sipCompress (s : SipState) (m : Word64) : SipState :=
  let s := { s with v3 := s.v3 ^^^ m }
  let s := sipRound (sipRound s)
  { s with v0 := s.v0 ^^^ m }

/-- The rounds of the finalization: 4 (rule R147). -/
def sipFinalRounds (s : SipState) : SipState :=
  sipRound (sipRound (sipRound (sipRound { s with v2 := s.v2 ^^^ 0xff#64 })))

/-- The tag of a finalized state (rule R147). -/
def sipTag (s : SipState) : Word64 := s.v0 ^^^ s.v1 ^^^ s.v2 ^^^ s.v3

/-- `SipHash24(k0, k1, msg)` (rules R142 to R147). -/
def sipHash24 (k0 k1 : Word64) (msg : List Byte) : Word64 :=
  sipTag (sipFinalRounds ((sipWords msg ++ [sipLastWord msg]).foldl sipCompress (sipInit k0 k1)))

/-- The reference `PRF`: key words and output little-endian (rules R141, R148, R150). -/
def referencePrf : Prf := fun pk msg =>
  leBytes 8 (sipHash24 (leWord (slice pk 0 8).toList) (leWord (slice pk 8 8).toList) msg).toNat

/-- The `PRF` an instance was built with (rule R6). -/
def prfOf : PrfSel → Prf
  | .reference => referencePrf
  | .other n => Config.otherPrf n

end Sys2Proof.Machine
end

