-- ==== Sys2Proof/Machine/KeyedHash.lean ====
section
/-! DEFINITION. KeyedHash and the mask (rules R131 to R138), for any `PRF`. -/

namespace Sys2Proof.Machine

/-- The primitive-order key: each half byte-reversed, the halves in place (rules R131, R132). -/
def primitiveKey (key : Bytes 16) : Bytes 16 := rev (slice key 0 8) ++ rev (slice key 8 8)

/-- `KeyedHash(key, msg)`: the primitive's output byte-reversed (rules R133, R134). -/
def keyedHash (prf : Prf) (key : Bytes 16) (msg : List Byte) : Bytes 8 :=
  rev (prf (primitiveKey key) msg)

/-- `Mask(key, u)`: the last 6 bytes of the KeyedHash output (rule R136). -/
def mask (prf : Prf) (key u : Bytes 16) : Bytes 6 :=
  slice (keyedHash prf key (formatMsg u).toList) 2 6

end Sys2Proof.Machine
end

