-- ==== Sys2Proof/Machine/Flags.lean ====
section
/-! DEFINITION. The block's only flags: the fields of STATUS (rules R30 to R33, R37), and the error codes. -/

namespace Sys2Proof.Machine

/-- The errors a command can end in (rules R201 to R203). -/
inductive CmdError where
  | invalidKeyLength
  | malformedIdentifier
  | illegalCommand
  deriving DecidableEq, Repr

/-- The ERR code of an error (rule R33). -/
def errCode : CmdError → BitVec 4
  | .invalidKeyLength => 0x1#4
  | .malformedIdentifier => 0x2#4
  | .illegalCommand => 0x3#4

/-- STATUS as a byte: `(ERR << 4) | (BUSY << 1) | VALID` (rule R54); bits 3:2 read 0 (rule R30). -/
def statusByte (err : BitVec 4) (busy valid : Bool) : Byte :=
  (err.setWidth 8 <<< 4) ||| ((BitVec.ofBool busy).setWidth 8 <<< 1) ||| (BitVec.ofBool valid).setWidth 8

end Sys2Proof.Machine
end

