-- ==== Sys2Proof/Machine/Operands.lean ====
section
/-! DEFINITION. The implicit operands of a command (rule R83), as it takes them at the step of its CMD write (rule R63). -/

namespace Sys2Proof.Machine

/-- The values a command works on: KEY, KEY_LEN and ID_IN, bytes as stored (rule R83). -/
structure CmdInputs where
  key : Bytes 16
  keyLen : Byte
  idIn : Bytes 16
  deriving DecidableEq, Repr

/-- The input snapshot of rule R63. -/
def snapshot (b : BlockState) : CmdInputs := { key := b.key, keyLen := b.keyLen, idIn := b.idIn }

end Sys2Proof.Machine
end

