-- ==== Sys2Proof/Machine/Ops.lean ====
section
/-! DEFINITION. The named operations over the registers: the two outcomes of a command (rules R204, R205), and the register window
(rules R22, R50 to R59).

The block takes no exceptions and returns from none (rules R208, R209): "An error's only effect is rule R205". So the one shared
operation for an error is `raiseError`. -/

namespace Sys2Proof.Machine

/-! ## The outcomes of a command -/

/-- `CompleteOk(out)` (rule R204). -/
def completeOk (out : Bytes 16) (b : BlockState) : BlockState :=
  { b with idOut := out, valid := true, err := 0x0#4 }

/-- The error outcome (rule R205). -/
def raiseError (e : CmdError) (b : BlockState) : BlockState :=
  { b with valid := false, err := errCode e }

/-- A command ends in exactly one outcome (rule R200). -/
def finish (r : Except CmdError (Bytes 16)) (b : BlockState) : BlockState :=
  match r with
  | .ok out => completeOk out b
  | .error e => raiseError e b

/-! ## The register window -/

/-- What stands at an offset of the window (rule R22). -/
inductive Reg where
  | cmd
  | status
  | keyLen
  | blockId
  | blockRev
  | config
  | key (i : Fin 16)
  | idIn (i : Fin 16)
  | idOut (i : Fin 16)
  | reserved
  deriving DecidableEq, Repr

/-- The register map of rule R22. -/
def regAt (off : Byte) : Reg :=
  let o := off.toNat
  if o = 0x00 then .cmd
  else if o = 0x01 then .status
  else if o = 0x02 then .keyLen
  else if o = 0x03 then .blockId
  else if o = 0x04 then .blockRev
  else if o = 0x05 then .config
  else if h : 0x10 ≤ o ∧ o ≤ 0x1F then .key ⟨o - 0x10, by omega⟩
  else if h : 0x20 ≤ o ∧ o ≤ 0x2F then .idIn ⟨o - 0x20, by omega⟩
  else if h : 0x30 ≤ o ∧ o ≤ 0x3F then .idOut ⟨o - 0x30, by omega⟩
  else .reserved

/-- The byte a register shows the host. `busy` is STATUS.BUSY: false in the atomic machine (rule R32). -/
def readReg (c : Config) (busy : Bool) (b : BlockState) : Reg → Byte
  | .cmd => 0x00#8
  | .status => statusByte b.err busy b.valid
  | .keyLen => b.keyLen
  | .blockId => 0x47#8
  | .blockRev => 0x01#8
  | .config => if c.strictVersion then 0x01#8 else 0x00#8
  | .key _ => 0x00#8
  | .idIn i => b.idIn[i]
  | .idOut i => b.idOut[i]
  | .reserved => 0x00#8

/-- `read(off)` of rule R54, with BUSY = `busy`. -/
def readWindow (c : Config) (busy : Bool) (b : BlockState) (off : Byte) : Byte :=
  readReg c busy b (regAt off)

/-- The effect of a host write on the register that stands at the offset, CMD left aside (rule R55):
KEY_LEN, KEY and ID_IN store the byte, the rest ignore it. -/
def storeReg (v : Byte) (b : BlockState) : Reg → BlockState
  | .keyLen => { b with keyLen := v }
  | .key i => { b with key := b.key.set i.val v i.isLt }
  | .idIn i => { b with idIn := b.idIn.set i.val v i.isLt }
  | .cmd => b
  | .status => b
  | .blockId => b
  | .blockRev => b
  | .config => b
  | .idOut _ => b
  | .reserved => b

/-- `write(off, v)` of rule R55 at an offset other than CMD's. -/
def storeWindow (b : BlockState) (off v : Byte) : BlockState := storeReg v b (regAt off)

/-! ## Where the window lies -/

/-- The host address of an offset: `BASE + off` (rules R7, R50). -/
def hostAddress (c : Config) (off : Byte) : Nat := c.base + off.toNat

/-- The offset a host address falls on; none outside the 256 bytes of the window (rule R50). -/
def offsetOf (c : Config) (a : Nat) : Option Byte :=
  if c.base ≤ a ∧ a < c.base + 256 then some (BitVec.ofNat 8 (a - c.base)) else none

/-- The window access that `MemRead(a, n)` makes (rules R14, R52); none when it does not reach the window.
DEDUCED (log entry 7): a wide access that begins below the window and reaches into it is one, at offset 0. -/
def memRead (c : Config) (a n : Nat) : Option HostOp :=
  if n = 1 then (offsetOf c a).map HostOp.rd
  else if a < c.base + 256 ∧ c.base < a + max n 1 then some (.wide (BitVec.ofNat 8 (a - c.base)) n)
  else none

/-- The window access that `MemWrite(a, n, v)` makes (rules R14, R52); of a one-byte write `v` is the byte. -/
def memWrite (c : Config) (a n : Nat) (v : Byte) : Option HostOp :=
  if n = 1 then (offsetOf c a).map fun off => HostOp.wr off v
  else if a < c.base + 256 ∧ c.base < a + max n 1 then some (.wide (BitVec.ofNat 8 (a - c.base)) n)
  else none

/-! ## The machine's updates -/

/-- The machine with its registers replaced. -/
def State.withBlock (s : State) (b : BlockState) : State := { s with block := b }

/-- The machine with other accesses to come. -/
def State.withPending (s : State) (es : List Event) : State := { s with pending := es }

/-- A host read: the byte goes to the host, and the block does not change (rules R54, R56). -/
def hostRead (off : Byte) (s : State) : State :=
  { s with reads := s.reads ++ [readWindow s.config false s.block off] }

/-- Reset: every register takes its reset value; the constants stay (rule R230). -/
def applyReset (s : State) : State := s.withBlock BlockState.reset

end Sys2Proof.Machine
end

