-- ==== Sys2Proof/Machine/Codec.lean ====
section
/-! DEFINITION. The meanings of ENCODE and DECODE (rules R170 to R174). -/

namespace Sys2Proof.Machine

/-- `Xcode(u, key, v)` (rule R174), for any `PRF`. -/
def xcode (prf : Prf) (u key : Bytes 16) (v : BitVec 4) : Bytes 16 :=
  let m := formatMsg u
  let k6 := slice (keyedHash prf key m.toList) 2 6
  let t := xorTs u k6
  setVV t v

/-- The checks and the transform of a decoded command with target version `v`, which wants inputs of
version `want`: the part of rule R173 after the decoding. The key length is checked first (rules R130, R206),
then the version under `strictVersion` (rule R172). -/
def codecOutcome (c : Config) (i : CmdInputs) (want v : BitVec 4) : Except CmdError (Bytes 16) :=
  if i.keyLen ≠ 16#8 then .error .invalidKeyLength
  else if c.strictVersion = true ∧ ver i.idIn ≠ want then .error .malformedIdentifier
  else .ok (xcode (prfOf c.prf) i.idIn i.key v)

/-- The outcome of ENCODE on given inputs: version 7 in, version 4 out (rules R170, R172). -/
def encodeOutcome (c : Config) (i : CmdInputs) : Except CmdError (Bytes 16) := codecOutcome c i 7#4 4#4

/-- The outcome of DECODE on given inputs: version 4 in, version 7 out (rules R171, R172). -/
def decodeOutcome (c : Config) (i : CmdInputs) : Except CmdError (Bytes 16) := codecOutcome c i 4#4 7#4

/-- ENCODE (rule R170). -/
def execEncode (s : State) : Host.Outcome State Fault Refusal :=
  .next (s.withBlock (finish (encodeOutcome s.config (snapshot s.block)) s.block))

/-- DECODE (rule R171). -/
def execDecode (s : State) : Host.Outcome State Fault Refusal :=
  .next (s.withBlock (finish (decodeOutcome s.config (snapshot s.block)) s.block))

/-- The outcome of any command byte on given inputs (rule R173). -/
def commandOutcome (c : Config) (i : CmdInputs) (byte : Byte) : Except CmdError (Bytes 16) :=
  match decodeByte byte with
  | .ok .encode => encodeOutcome c i
  | .ok .decode => decodeOutcome c i
  | .error _ => .error .illegalCommand

end Sys2Proof.Machine
end

