-- ==== Sys2Proof/Machine/Window.lean ====
section
/-! DEFINITION. One host access to the window (rules R54, R55, R66), a CMD write with its whole command included (rule R60). -/

namespace Sys2Proof.Machine

/-- `Command(c)` (rule R173): the decoded command runs; any other byte raises IllegalCommand (rules R82, R203). -/
def command (c : Byte) (s : State) : Host.Outcome State Fault Refusal :=
  match decodeByte c with
  | .ok i => exec i s
  | .error _ => .next (s.withBlock (raiseError .illegalCommand s.block))

/-- `write(off, v)` (rule R55). -/
def hostWrite (off v : Byte) (s : State) : Host.Outcome State Fault Refusal :=
  match regAt off with
  | .cmd => command v s
  | _ => .next (s.withBlock (storeWindow s.block off v))

/-- One host access (rule R66). A wide access is refused (rule R52). -/
def hostStep (op : HostOp) (s : State) : Host.Outcome State Fault Refusal :=
  match op with
  | .rd off => .next (hostRead off s)
  | .wr off v => hostWrite off v s
  | .wide off n => .refused (.wideAccess off n)

/-- What one event does: an access of a host, or the external reset (rules R21, R230). -/
def eventStep (e : Event) (s : State) : Host.Outcome State Fault Refusal :=
  match e with
  | .access op => hostStep op s
  | .reset => .next (applyReset s)

/-- A sequence of events, one after the other, each on the state the one before it left (rule R60). -/
def runEvents : List Event → State → Host.Outcome State Fault Refusal
  | [], s => .next s
  | e :: es, s =>
    match eventStep e s with
    | .next t => runEvents es t
    | .fault r => .fault r
    | .refused r => .refused r

/-- The access by which a host hands the block the instruction of `nbits` bits `w`: a write of its byte to CMD
(rules R34, R80). -/
def fetchEvent (nbits w : Nat) : Event := .access (.wr 0x00#8 (tableByte nbits w))

end Sys2Proof.Machine
end

