-- ==== Sys2Proof/Machine/Step.lean ====
section
/-! DEFINITION. One step of the machine. The block acts only on what reaches it from outside (rules R20, R21). -/

namespace Sys2Proof.Machine

/-- One step: the next event, in the one total order of all accesses (rule R60). With none to come the block
waits unchanged (rule R231; log entry 3). -/
def step (s : State) : Host.Outcome State Fault Refusal :=
  match s.pending with
  | [] => .next s
  | e :: rest => eventStep e (s.withPending rest)

/-- `s` with a CMD write of the instruction's byte as the very next access (log entry 3). -/
def State.withFetchWord (s : State) (nbits w : Nat) : State :=
  s.withPending (fetchEvent nbits w :: s.pending)

end Sys2Proof.Machine
end

