-- ==== Sys2Proof/Machine/HostProgram.lean ====
section
/-! DEFINITION. Host programs: transaction words, assembler lines and their expansion (rules R85 to R87), run against the machine.
This is test notation: "the block never sees it" (rule R85). -/

namespace Sys2Proof.Machine

/-! ## Transaction words (rule R85) -/

/-- The transaction word of an access: W, OFF, DATA. A wide access has none. -/
def txWord : HostOp → Option (BitVec 17)
  | .rd off => some ((0#1 ++ off ++ 0x00#8).cast rfl)
  | .wr off v => some ((1#1 ++ off ++ v).cast rfl)
  | .wide _ _ => none

/-- The access a transaction word stands for; a read whose DATA is not 0 is no transaction word. -/
def ofTxWord (w : BitVec 17) : Option HostOp :=
  let off := w.extractLsb' 8 8
  let data := w.extractLsb' 0 8
  if w.getLsbD 16 then some (.wr off data)
  else if data = 0x00#8 then some (.rd off)
  else none

/-- The hexadecimal digit of a number below 16. -/
def hexDigit (n : Nat) : Char := if n < 10 then Char.ofNat (48 + n) else Char.ofNat (87 + n)

/-- A transaction word written as five hex digits. -/
def txHex (w : BitVec 17) : List Char :=
  (List.range 5).map fun k => hexDigit (w.toNat / 16 ^ (4 - k) % 16)

/-! ## Assembler lines (rules R86, R87) -/

/-- One line: a transaction or a pseudo-instruction. -/
inductive Asm where
  | wr8 (off v : Byte)
  | rd8 (off : Byte)
  | encode
  | decode
  | status
  | setkeylen (n : Byte)
  | setkey (k : Bytes 16)
  | setid (u : Bytes 16)
  | getout
  | movout
  deriving DecidableEq, Repr

/-- What a host does in one transaction: an access, or (in `movout`) a write of the byte its last read returned. -/
inductive HostAct where
  | op (o : HostOp)
  | wrLast (off : Byte)
  deriving DecidableEq, Repr

/-- `wr8 base+i, b_i` for i = 0 to 15, in ascending order. -/
def storeAll (base : Byte) (b : Bytes 16) : List HostAct :=
  (List.finRange 16).map fun i => .op (.wr (base + BitVec.ofNat 8 i.val) b[i])

/-- The expansion of a line (rules R86, R87). -/
def expand : Asm → List HostAct
  | .wr8 off v => [.op (.wr off v)]
  | .rd8 off => [.op (.rd off)]
  | .encode => [.op (.wr 0x00#8 0x01#8)]
  | .decode => [.op (.wr 0x00#8 0x02#8)]
  | .status => [.op (.rd 0x01#8)]
  | .setkeylen n => [.op (.wr 0x02#8 n)]
  | .setkey k => storeAll 0x10#8 k ++ [.op (.wr 0x02#8 0x10#8)]
  | .setid u => storeAll 0x20#8 u
  | .getout => (List.range 16).map fun i => .op (.rd (0x30#8 + BitVec.ofNat 8 i))
  | .movout =>
    (List.range 16).flatMap fun i =>
      [.op (.rd (0x30#8 + BitVec.ofNat 8 i)), .wrLast (0x20#8 + BitVec.ofNat 8 i)]

/-! ## The text of a line (rule R86)

A line is a list of characters, split at blanks and commas into words. -/

/-- Do characters end a word? -/
def isSeparator (c : Char) : Bool := c == ' ' || c == ',' || c == '\t'

/-- Put a finished word in front of the words after it. -/
def pushWord (w : List Char) (ws : List (List Char)) : List (List Char) :=
  if w.isEmpty then ws else w :: ws

/-- The words of a line. -/
def words (line : List Char) : List (List Char) :=
  let r := line.foldr (init := (([] : List Char), ([] : List (List Char)))) fun c acc =>
    if isSeparator c then ([], pushWord acc.1 acc.2) else (c :: acc.1, acc.2)
  pushWord r.1 r.2

/-- The value of a hexadecimal digit. -/
def digitVal (c : Char) : Option Nat :=
  let n := c.toNat
  if 48 ≤ n ∧ n ≤ 57 then some (n - 48)
  else if 97 ≤ n ∧ n ≤ 102 then some (n - 87)
  else if 65 ≤ n ∧ n ≤ 70 then some (n - 55)
  else none

/-- The number a nonempty word spells in a base. -/
def digitsVal (base : Nat) (w : List Char) : Option Nat :=
  if w.isEmpty then none
  else w.foldl (init := some 0) fun acc c =>
    match acc, digitVal c with
    | some n, some d => if d < base then some (n * base + d) else none
    | _, _ => none

/-- A number: hex with `0x`, or decimal. -/
def parseNum : List Char → Option Nat
  | '0' :: 'x' :: w => digitsVal 16 w
  | w => digitsVal 10 w

/-- A number that is a byte. -/
def parseByte (w : List Char) : Option Byte :=
  match parseNum w with
  | some n => if n < 256 then some (BitVec.ofNat 8 n) else none
  | none => none

/-- 16 bytes, from as many. -/
def bytes16 (l : List Byte) : Option (Bytes 16) :=
  if h : l.length = 16 then some ⟨l.toArray, by simpa using h⟩ else none

/-- 16 bytes spelled with 32 hex digits: byte i is digits 2i and 2i+1 (rule R87). -/
def parseHex32 (w : List Char) : Option (Bytes 16) :=
  if w.length = 32 then (digitsVal 16 w).map (beBytes 16) else none

/-- The operand of `setkey`: 16 bytes, or one word of 32 hex digits. -/
def parseKey : List (List Char) → Option (Bytes 16)
  | [w] => parseHex32 w
  | ws => (ws.mapM parseByte).bind bytes16

/-- The operand of `setid`: as `setkey`'s, or the hyphenated text form with its hyphens removed first. PRESUMED
(log entry 8). -/
def parseId : List (List Char) → Option (Bytes 16)
  | [w] => parseHex32 (w.filter (· != '-'))
  | ws => (ws.mapM parseByte).bind bytes16

/-- The line a text spells. -/
def parseAsm (line : List Char) : Option Asm :=
  match words line with
  | [] => none
  | m :: args =>
    if m = ['w', 'r', '8'] then
      match args with
      | [a, b] => match parseByte a, parseByte b with
        | some off, some v => some (.wr8 off v)
        | _, _ => none
      | _ => none
    else if m = ['r', 'd', '8'] then
      match args with
      | [a] => (parseByte a).map .rd8
      | _ => none
    else if m = ['s', 'e', 't', 'k', 'e', 'y', 'l', 'e', 'n'] then
      match args with
      | [a] => (parseByte a).map .setkeylen
      | _ => none
    else if m = ['s', 'e', 't', 'k', 'e', 'y'] then (parseKey args).map .setkey
    else if m = ['s', 'e', 't', 'i', 'd'] then (parseId args).map .setid
    else if args ≠ [] then none
    else if m = ['e', 'n', 'c', 'o', 'd', 'e'] then some .encode
    else if m = ['d', 'e', 'c', 'o', 'd', 'e'] then some .decode
    else if m = ['s', 't', 'a', 't', 'u', 's'] then some .status
    else if m = ['g', 'e', 't', 'o', 'u', 't'] then some .getout
    else if m = ['m', 'o', 'v', 'o', 'u', 't'] then some .movout
    else none

/-! ## Running a host program -/

/-- A host's access comes next in the total order of accesses (rule R60), and the machine takes its step. -/
def hostDo (op : HostOp) (s : State) : Host.Outcome State Fault Refusal :=
  step (s.withPending (.access op :: s.pending))

/-- The byte the last read returned. -/
def lastRead (s : State) : Byte := s.reads.getLastD 0x00#8

/-- One transaction of a host. -/
def runAct (a : HostAct) (s : State) : Host.Outcome State Fault Refusal :=
  match a with
  | .op o => hostDo o s
  | .wrLast off => hostDo (.wr off (lastRead s)) s

/-- A host's transactions in its program order, no other host between them (rule R216). -/
def runActs : List HostAct → State → Host.Outcome State Fault Refusal
  | [], s => .next s
  | a :: as, s =>
    match runAct a s with
    | .next t => runActs as t
    | .fault r => .fault r
    | .refused r => .refused r

/-- A host program: its lines in order. It ends after its last transaction (rule R245). -/
def runAsm (lines : List Asm) (s : State) : Host.Outcome State Fault Refusal :=
  runActs (lines.flatMap expand) s

end Sys2Proof.Machine
end

