-- ==== Sys2Proof/Machine/Latency.lean ====
section
/-! DEFINITION. Implementations with `LATENCY` > 0 (rules R8, R230, R241, R243), beside the atomic machine of `Step.lean`, which the
spec takes as the model (rule R240). A command here is in progress for `LATENCY` ticks, and STATUS.BUSY shows it. -/

namespace Sys2Proof.Machine

/-- A command in progress: the ticks left, its byte, and the inputs latched at its CMD write (rule R241). -/
structure InFlight where
  left : Nat
  byte : Byte
  inputs : CmdInputs
  deriving DecidableEq, Repr

/-- An implementation: the registers, and the command in progress if there is one. -/
structure LatState where
  arch : State
  inflight : Option InFlight
  deriving DecidableEq, Repr

/-- What can happen to an implementation: an access, reset, or the passing of one tick. -/
inductive LatEvent where
  | bus (e : Event)
  | tick
  deriving DecidableEq, Repr

/-- STATUS.BUSY: a command is in progress (rule R32). -/
def busy (l : LatState) : Bool := l.inflight.isSome

/-- The completion of a command: its outcome is written and BUSY falls (rules R204, R205). -/
def latFinish (f : InFlight) (l : LatState) : LatState where
  arch := l.arch.withBlock (finish (commandOutcome l.arch.config f.inputs f.byte) l.arch.block)
  inflight := none

/-- A CMD write of `v` while BUSY = 0: the inputs are latched, and until completion VALID = 0 and ERR = 0
(rule R241). With `LATENCY` = 0 the command completes at once. -/
def latStart (v : Byte) (l : LatState) : LatState :=
  let f : InFlight := { left := l.arch.config.latency, byte := v, inputs := snapshot l.arch.block }
  if l.arch.config.latency = 0 then latFinish f l
  else { arch := l.arch.withBlock { l.arch.block with valid := false, err := 0x0#4 }, inflight := some f }

/-- One tick: a command in progress comes nearer to its completion. -/
def latTick (l : LatState) : LatState :=
  match l.inflight with
  | none => l
  | some f => if f.left ≤ 1 then latFinish f l else { l with inflight := some { f with left := f.left - 1 } }

/-- The byte a host read returns: `read(off)` of rule R54 with BUSY as it stands. -/
def latReadByte (off : Byte) (l : LatState) : Byte := readWindow l.arch.config (busy l) l.arch.block off

/-- One host access. While BUSY = 1 writes at every offset are ignored (rule R241). -/
def latAccess (op : HostOp) (l : LatState) : Host.Outcome LatState Fault Refusal :=
  match op with
  | .rd off => .next { l with arch := { l.arch with reads := l.arch.reads ++ [latReadByte off l] } }
  | .wr off v =>
    if busy l then .next l
    else match regAt off with
      | .cmd => .next (latStart v l)
      | _ => .next { l with arch := l.arch.withBlock (storeWindow l.arch.block off v) }
  | .wide off n => .refused (.wideAccess off n)

/-- One event. Reset abandons a command in progress (rule R230). -/
def latStep (e : LatEvent) (l : LatState) : Host.Outcome LatState Fault Refusal :=
  match e with
  | .bus (.access op) => latAccess op l
  | .bus .reset => .next { arch := applyReset l.arch, inflight := none }
  | .tick => .next (latTick l)

/-- A sequence of events. -/
def latRun : List LatEvent → LatState → Host.Outcome LatState Fault Refusal
  | [], l => .next l
  | e :: es, l =>
    match latStep e l with
    | .next l' => latRun es l'
    | .fault r => .fault r
    | .refused r => .refused r

/-! ## The polling duty, and what a host that keeps it observes (rule R241) -/

/-- Is the event a poll: a read of STATUS while BUSY = 1? Its byte is no outcome. -/
def isPoll (l : LatState) : LatEvent → Bool
  | .bus (.access (.rd off)) => busy l && regAt off == .status
  | _ => false

/-- Does the event keep the duty of rule R241: while BUSY = 1 no read of ID_OUT, and no write of KEY, KEY_LEN,
ID_IN or CMD? -/
def keepsDuty (l : LatState) : LatEvent → Bool
  | .bus (.access (.rd off)) =>
    !busy l || (match regAt off with
      | .idOut _ => false
      | _ => true)
  | .bus (.access (.wr off _)) =>
    !busy l || (match regAt off with
      | .key _ => false
      | .keyLen => false
      | .idIn _ => false
      | .cmd => false
      | _ => true)
  | _ => true

/-- Does every event of a sequence keep the duty? -/
def dutiful : List LatEvent → LatState → Bool
  | [], _ => true
  | e :: es, l =>
    keepsDuty l e && (match latStep e l with
      | .next l' => dutiful es l'
      | _ => true)

/-- An event as the atomic machine sees it: nothing for a tick or a poll. -/
def seenEvents (l : LatState) (e : LatEvent) : List Event :=
  match e with
  | .bus b => if isPoll l e then [] else [b]
  | .tick => []

/-- The byte an event hands the host, a poll's left out. -/
def resultOf (l : LatState) (e : LatEvent) : List Byte :=
  match e with
  | .bus (.access (.rd off)) => if isPoll l e then [] else [latReadByte off l]
  | _ => []

/-- The events of a sequence as the atomic machine sees them: no ticks, no polls. -/
def atomicEvents : List LatEvent → LatState → List Event
  | [], _ => []
  | e :: es, l =>
    seenEvents l e ++
    (match latStep e l with
      | .next l' => atomicEvents es l'
      | _ => [])

/-- The bytes the reads of a sequence returned, those of polls left out. -/
def results : List LatEvent → LatState → List Byte
  | [], _ => []
  | e :: es, l =>
    resultOf l e ++
    (match latStep e l with
      | .next l' => results es l'
      | _ => [])

/-- The registers as they stand once a command in progress has completed. -/
def settled (l : LatState) : State :=
  match l.inflight with
  | none => l.arch
  | some f => (latFinish f l).arch

end Sys2Proof.Machine
end

