-- ==== Sys2Proof/Safety.lean ====
section
/-! DEFINITION. What the registers look like in every state a run reaches, and which runs never stop. -/

namespace Sys2Proof.Machine

/-- The control bits every output carries: version 4 or 7, variant `10` (rules R102, R103, R181). -/
def Tagged (u : Bytes 16) : Prop := (ver u = 4#4 ∨ ver u = 7#4) ∧ var u = 0b10#2

/-- The registers' invariant. ERR is one of the four codes (rule R33). VALID = 1 says that the last command
succeeded, so ERR is 0 and ID_OUT holds an output (rules R31, R204). ID_OUT holds an output or its reset value
(rules R29, R230). STATUS = 0x00 says that no command ran since reset, so ID_OUT holds its reset value. -/
structure BlockInv (b : BlockState) : Prop where
  errCode : b.err.toNat ≤ 3
  validOk : b.valid = true → b.err = 0x0#4 ∧ Tagged b.idOut
  idOutForm : Tagged b.idOut ∨ b.idOut = BlockState.reset.idOut
  freshStatus : b.valid = false → b.err = 0x0#4 → b.idOut = BlockState.reset.idOut

/-- The machine's invariant: its registers'. -/
def StateInv (s : State) : Prop := BlockInv s.block

/-- The invariant of an implementation with latency (rule R241). A command in progress has 1 to `LATENCY` ticks left;
its latched inputs are still what the registers hold, because writes are ignored meanwhile; VALID and ERR are 0.
ID_OUT holds an output or its reset value, and completion leads to the atomic machine's invariant. -/
structure LatInv (l : LatState) : Prop where
  inProgress : ∀ f, l.inflight = some f →
    1 ≤ f.left ∧ f.left ≤ l.arch.config.latency ∧ f.inputs = snapshot l.arch.block ∧
    l.arch.block.valid = false ∧ l.arch.block.err = 0x0#4
  idOutForm : Tagged l.arch.block.idOut ∨ l.arch.block.idOut = BlockState.reset.idOut
  settledInv : StateInv (settled l)

/-- A host that issues one-byte accesses only (rules R52, R219). -/
def oneByte : Event → Bool
  | .access (.wide _ _) => false
  | .access (.rd _) => true
  | .access (.wr _ _) => true
  | .reset => true

/-- A state from which no run is refused: every access to come is one byte wide. -/
def Safe (s : State) : Prop := s.pending.all oneByte = true

end Sys2Proof.Machine
end

