-- ==== Sys2Proof/Certificates/Slice0/Obligations.lean ====
section
/-! DEFINITION. The statements for the provers, in the order of the spec's files: encoding, commands, the window, the datapath,
host programs, reset, implementations with `LATENCY` > 0. Each docstring names the rules it formalises. -/

open Sys2Proof Sys2Proof.Machine

/-! ## Encoding -/

/-- Rule R81: the opcode map, over all 8 bits. -/
def Obligations.OpcodeMap : Prop :=
  decodeByte 0b00000001#8 = .ok .encode ∧ decodeByte 0b00000010#8 = .ok .decode ∧
  (∀ c : Byte, c ≠ 0x01#8 → c ≠ 0x02#8 → decodeByte c = .error (.illegalCommand c)) ∧
  opcodeTable.map OpcodeRow.mask = [0xFF#8, 0xFF#8]

/-- Rules R80, R81, R84: a command is one byte; decoding an encoded command gives it back, and what decodes is an
encoded command. -/
def Obligations.DecodeEncode : Prop :=
  (∀ i : Instr, (encode i).length = 1) ∧
  (∀ (i : Instr) (rest : List Byte), decode (encode i ++ rest) = .ok (i, rest)) ∧
  (∀ (bs rest : List Byte) (i : Instr), decode bs = .ok (i, rest) → bs = encode i ++ rest)

/-- Rules R34, R60: when the next access writes to CMD a byte that decodes to `i`, the step is `exec` of `i`,
the access taken from those to come. -/
def Obligations.StepRunsDecoded : Prop :=
  (∀ (s : State) (c : Byte) (rest : List Event) (i : Instr),
    s.pending = .access (.wr 0x00#8 c) :: rest → decodeByte c = .ok i →
      step s = exec i (s.withPending rest)) ∧
  (∀ (s : State) (i : Instr), step (s.withFetchWord 8 (encodeByte i).toNat) = exec i s)

/-- Rule R82: every byte but 0x01 and 0x02 is illegal, 254 in all; writing one to CMD raises IllegalCommand and
changes nothing but STATUS. -/
def Obligations.IllegalBytes : Prop :=
  (∀ (c : Byte) (s : State), c ≠ 0x01#8 → c ≠ 0x02#8 →
    hostStep (.wr 0x00#8 c) s = .next { s with block := { s.block with valid := false, err := 0x3#4 } }) ∧
  ((List.range 256).filter fun n => (decodeTableWord 8 n).isNone).length = 254

/-- Rule R85: the fields of a transaction word, and that words and one-byte accesses are in one-to-one
correspondence, the words being those of 17 bits whose DATA is 0 for a read; and the rule's two examples in their
five hex digits. -/
def Obligations.TransactionWords : Prop :=
  (∀ off : Byte, ∃ w, txWord (.rd off) = some w ∧
    w.getLsbD 16 = false ∧ w.extractLsb' 8 8 = off ∧ w.extractLsb' 0 8 = 0x00#8) ∧
  (∀ off v : Byte, ∃ w, txWord (.wr off v) = some w ∧
    w.getLsbD 16 = true ∧ w.extractLsb' 8 8 = off ∧ w.extractLsb' 0 8 = v) ∧
  (∀ (op : HostOp) (w : BitVec 17), txWord op = some w ↔ ofTxWord w = some op) ∧
  (∀ w : BitVec 17, (ofTxWord w).isSome = txWordWellFormed w.toNat) ∧
  (txWord (.wr 0x00#8 0x01#8)).map txHex = some ['1', '0', '0', '0', '1'] ∧
  (txWord (.rd 0x30#8)).map txHex = some ['0', '3', '0', '0', '0']

/-! ## Commands -/

/-- Rule R170: ENCODE completes whenever KEY_LEN = 16 and, in a strict instance, Ver(ID_IN) = 7. It writes
Xcode(ID_IN, KEY, 4) to ID_OUT, VALID = 1, ERR = 0, and nothing else; STATUS then reads 0x01. -/
def Obligations.EncodeResult : Prop :=
  ∀ s : State, s.block.keyLen = 16#8 → (s.config.strictVersion = true → ver s.block.idIn = 7#4) →
    ∃ t, exec .encode s = .next t ∧
      t = { s with block := { s.block with
              idOut := xcode (prfOf s.config.prf) s.block.idIn s.block.key 4#4, valid := true, err := 0x0#4 } } ∧
      readWindow t.config false t.block 0x01#8 = 0x01#8

/-- Rule R171: DECODE completes whenever KEY_LEN = 16 and, in a strict instance, Ver(ID_IN) = 4. It writes
Xcode(ID_IN, KEY, 7) to ID_OUT, VALID = 1, ERR = 0, and nothing else; STATUS then reads 0x01. -/
def Obligations.DecodeResult : Prop :=
  ∀ s : State, s.block.keyLen = 16#8 → (s.config.strictVersion = true → ver s.block.idIn = 4#4) →
    ∃ t, exec .decode s = .next t ∧
      t = { s with block := { s.block with
              idOut := xcode (prfOf s.config.prf) s.block.idIn s.block.key 7#4, valid := true, err := 0x0#4 } } ∧
      readWindow t.config false t.block 0x01#8 = 0x01#8

/-- Rule R173: a CMD write runs the rule's pseudocode; it reads KEY, KEY_LEN and ID_IN and writes only ID_OUT and
STATUS. -/
def Obligations.CommandPseudocode : Prop :=
  (∀ (c : Byte) (s : State), hostStep (.wr 0x00#8 c) s = .next (s.withBlock (
    if c = 0x01#8 ∨ c = 0x02#8 then
      let v : BitVec 4 := if c = 0x01#8 then 4#4 else 7#4
      let u := s.block.idIn
      if s.block.keyLen ≠ 16#8 then raiseError .invalidKeyLength s.block
      else if s.config.strictVersion = true ∧ ver u ≠ (if v = 4#4 then 7#4 else 4#4) then
        raiseError .malformedIdentifier s.block
      else completeOk (xcode (prfOf s.config.prf) u s.block.key v) s.block
    else raiseError .illegalCommand s.block))) ∧
  (∀ (c : Byte) (s s' t t' : State), s.config = s'.config → s.block.key = s'.block.key →
    s.block.keyLen = s'.block.keyLen → s.block.idIn = s'.block.idIn →
    hostStep (.wr 0x00#8 c) s = .next t → hostStep (.wr 0x00#8 c) s' = .next t' →
      t.block.valid = t'.block.valid ∧ t.block.err = t'.block.err ∧
      (t.block.valid = true → t.block.idOut = t'.block.idOut)) ∧
  (∀ (c : Byte) (s t : State), hostStep (.wr 0x00#8 c) s = .next t →
    t = { s with block := { s.block with
            idOut := t.block.idOut, valid := t.block.valid, err := t.block.err } })

/-- Rule R130: KEY_LEN other than 16 raises InvalidKeyLength before any hashing, and nothing but STATUS is
written; exactly 16 passes, whatever KEY holds. -/
def Obligations.KeyLengthCheck : Prop :=
  (∀ (i : Instr) (s : State), s.block.keyLen ≠ 16#8 →
    ∃ t, exec i s = .next t ∧
      t = { s with block := { s.block with valid := false, err := 0x1#4 } } ∧
      readWindow t.config false t.block 0x01#8 = 0x10#8) ∧
  (∀ (i : Instr) (s t : State), s.block.keyLen = 16#8 → exec i s = .next t → t.block.err ≠ 0x1#4)

/-- Rule R172: the version check of a strict instance, and its absence in any other. It reads only the version
nibble. -/
def Obligations.StrictVersionCheck : Prop :=
  (∀ s : State, s.config.strictVersion = true → s.block.keyLen = 16#8 →
    (ver s.block.idIn ≠ 7#4 →
      exec .encode s = .next { s with block := { s.block with valid := false, err := 0x2#4 } }) ∧
    (ver s.block.idIn = 7#4 → ∃ t, exec .encode s = .next t ∧ t.block.valid = true) ∧
    (ver s.block.idIn ≠ 4#4 →
      exec .decode s = .next { s with block := { s.block with valid := false, err := 0x2#4 } }) ∧
    (ver s.block.idIn = 4#4 → ∃ t, exec .decode s = .next t ∧ t.block.valid = true)) ∧
  (∀ s : State, s.config.strictVersion = false → s.block.keyLen = 16#8 →
    exec .encode s =
      .next (s.withBlock (completeOk (xcode (prfOf s.config.prf) s.block.idIn s.block.key 4#4) s.block)) ∧
    exec .decode s =
      .next (s.withBlock (completeOk (xcode (prfOf s.config.prf) s.block.idIn s.block.key 7#4) s.block))) ∧
  (∀ (i : Instr) (s s' t t' : State), s.config = s'.config → s.block.keyLen = s'.block.keyLen →
    ver s.block.idIn = ver s'.block.idIn → exec i s = .next t → exec i s' = .next t' →
      t.block.valid = t'.block.valid ∧ t.block.err = t'.block.err)

/-- What a command leaves unchanged (rules R170, R171, R176, R179): KEY, KEY_LEN, ID_IN, the configuration, the
accesses to come and the bytes read; every byte of the window outside STATUS and ID_OUT; and ID_OUT too when the
command ends in an error (rule R205). -/
def Obligations.CommandFrame : Prop :=
  ∀ (i : Instr) (s t : State), exec i s = .next t →
    t.block.key = s.block.key ∧ t.block.keyLen = s.block.keyLen ∧ t.block.idIn = s.block.idIn ∧
    t.config = s.config ∧ t.pending = s.pending ∧ t.reads = s.reads ∧
    (t.block.valid = false → t.block.idOut = s.block.idOut) ∧
    (∀ off : Byte, off ≠ 0x01#8 → ¬ (0x30 ≤ off.toNat ∧ off.toNat ≤ 0x3F ∧ t.block.valid = true) →
      readWindow t.config false t.block off = readWindow s.config false s.block off)

/-- Rule R178: no command reads the variant bits of ID_IN, and every output has variant `10`. -/
def Obligations.VariantIgnored : Prop :=
  (∀ (i : Instr) (s t t' : State) (u' : Bytes 16),
    ts u' = ts s.block.idIn → ver u' = ver s.block.idIn → free u' = free s.block.idIn →
    exec i s = .next t → exec i { s with block := { s.block with idIn := u' } } = .next t' →
      t' = { t with block := { t.block with idIn := u' } }) ∧
  (∀ (i : Instr) (s t : State), exec i s = .next t → t.block.valid = true → var t.block.idOut = 0b10#2)

/-- Rule R177: without the strict check an input of the wrong version is transformed by Xcode all the same, and
the round trip gives back the input with its version replaced, not the input. -/
def Obligations.NonStrictTotal : Prop :=
  (∀ s : State, s.config.strictVersion = false → s.block.keyLen = 16#8 →
    (ver s.block.idIn ≠ 7#4 → exec .encode s = .next (s.withBlock
      (completeOk (xcode (prfOf s.config.prf) s.block.idIn s.block.key 4#4) s.block))) ∧
    (ver s.block.idIn ≠ 4#4 → exec .decode s = .next (s.withBlock
      (completeOk (xcode (prfOf s.config.prf) s.block.idIn s.block.key 7#4) s.block)))) ∧
  (∀ (prf : Prf) (u key : Bytes 16), ver u ≠ 7#4 →
    xcode prf (xcode prf u key 4#4) key 7#4 = setVV u 7#4 ∧ setVV u 7#4 ≠ u) ∧
  (∀ (prf : Prf) (u key : Bytes 16), ver u ≠ 4#4 →
    xcode prf (xcode prf u key 7#4) key 4#4 = setVV u 4#4 ∧ setVV u 4#4 ≠ u)

/-! ## Outcomes -/

/-- Rule R204: CompleteOk(out). BUSY is 0 in the atomic machine, and falls at completion where there is latency. -/
def Obligations.SuccessOutcome : Prop :=
  (∀ (c : Config) (out : Bytes 16) (b : BlockState),
    completeOk out b = { b with idOut := out, valid := true, err := 0x0#4 } ∧
    readWindow c false (completeOk out b) 0x01#8 = 0x01#8) ∧
  (∀ (f : InFlight) (l : LatState), busy (latFinish f l) = false)

/-- Rule R205: the error outcome. No error depends on the PRF. -/
def Obligations.ErrorOutcome : Prop :=
  (∀ (e : CmdError) (b : BlockState), raiseError e b = { b with valid := false, err := errCode e }) ∧
  (∀ (f : InFlight) (l : LatState), busy (latFinish f l) = false) ∧
  (∀ (c : Config) (b : BlockState),
    readWindow c false (raiseError .invalidKeyLength b) 0x01#8 = 0x10#8 ∧
    readWindow c false (raiseError .malformedIdentifier b) 0x01#8 = 0x20#8 ∧
    readWindow c false (raiseError .illegalCommand b) 0x01#8 = 0x30#8) ∧
  (∀ (c : Config) (p : PrfSel) (i : CmdInputs) (byte : Byte) (e : CmdError),
    commandOutcome c i byte = .error e → commandOutcome { c with prf := p } i byte = .error e)

/-- Rule R206: of several errors exactly one is reported, IllegalCommand before InvalidKeyLength before
MalformedIdentifier. -/
def Obligations.ErrorPriority : Prop :=
  ∀ (c : Byte) (s t : State), hostStep (.wr 0x00#8 c) s = .next t →
    (c ≠ 0x01#8 → c ≠ 0x02#8 → t.block.err = errCode .illegalCommand) ∧
    (c = 0x01#8 ∨ c = 0x02#8 → s.block.keyLen ≠ 16#8 → t.block.err = errCode .invalidKeyLength) ∧
    (c = 0x01#8 → s.block.keyLen = 16#8 → s.config.strictVersion = true → ver s.block.idIn ≠ 7#4 →
      t.block.err = errCode .malformedIdentifier) ∧
    (c = 0x02#8 → s.block.keyLen = 16#8 → s.config.strictVersion = true → ver s.block.idIn ≠ 4#4 →
      t.block.err = errCode .malformedIdentifier)

/-- Rules R207 and R179: in the one step of the CMD write an erroring command changes STATUS and nothing else, a
successful one ID_OUT and STATUS and nothing else; KEY, KEY_LEN and ID_IN are never written. -/
def Obligations.Precision : Prop :=
  ∀ (c : Byte) (s : State) (rest : List Event), s.pending = .access (.wr 0x00#8 c) :: rest →
    ∃ t, step s = .next t ∧ t.pending = rest ∧ t.config = s.config ∧ t.reads = s.reads ∧
      t.block.key = s.block.key ∧ t.block.keyLen = s.block.keyLen ∧ t.block.idIn = s.block.idIn ∧
      (t.block.valid = true ∧ t.block.err = 0x0#4 ∨
        t.block.valid = false ∧ t.block.err ≠ 0x0#4 ∧ t.block.idOut = s.block.idOut)

/-! ## The register window -/

/-- Rule R54: what a host read returns, BUSY being 0, and that it changes no register. -/
def Obligations.HostRead : Prop :=
  ∀ (off : Byte) (s : State),
    hostStep (.rd off) s = .next { s with reads := s.reads ++ [
      if off.toNat = 0x00 then 0x00#8
      else if off.toNat = 0x01 then
        (s.block.err.setWidth 8 <<< 4) ||| (if s.block.valid = true then 0x01#8 else 0x00#8)
      else if off.toNat = 0x02 then s.block.keyLen
      else if off.toNat = 0x03 then 0x47#8
      else if off.toNat = 0x04 then 0x01#8
      else if off.toNat = 0x05 then (if s.config.strictVersion = true then 0x01#8 else 0x00#8)
      else if off.toNat ≤ 0x0F then 0x00#8
      else if off.toNat ≤ 0x1F then 0x00#8
      else if h : off.toNat ≤ 0x2F then s.block.idIn[off.toNat - 0x20]
      else if h : off.toNat ≤ 0x3F then s.block.idOut[off.toNat - 0x30]
      else 0x00#8] }

/-- Rule R55: what a host write does. -/
def Obligations.HostWrite : Prop :=
  ∀ (off v : Byte) (s : State),
    hostStep (.wr off v) s =
      if off.toNat = 0x00 then command v s
      else if off.toNat = 0x02 then .next { s with block := { s.block with keyLen := v } }
      else if h : 0x10 ≤ off.toNat ∧ off.toNat ≤ 0x1F then
        .next { s with block := { s.block with key := s.block.key.set (off.toNat - 0x10) v (by omega) } }
      else if h : 0x20 ≤ off.toNat ∧ off.toNat ≤ 0x2F then
        .next { s with block := { s.block with idIn := s.block.idIn.set (off.toNat - 0x20) v (by omega) } }
      else .next s

/-- Rule R56: no read has a side effect; a write at another offset than CMD's stores its byte at its offset and
does nothing else (nothing at all at a WI offset), and repeated with the same value changes nothing further; a write
at CMD runs a command; the same command repeated with KEY, KEY_LEN and ID_IN unchanged gives the same registers. -/
def Obligations.SideEffects : Prop :=
  (∀ (off : Byte) (s : State), ∃ t, hostStep (.rd off) s = .next t ∧ t = { s with reads := t.reads } ∧
    ∀ off', readWindow t.config false t.block off' = readWindow s.config false s.block off') ∧
  (∀ (off v : Byte) (s : State), off ≠ 0x00#8 → ∃ t, hostStep (.wr off v) s = .next t ∧
    t = { s with block := { s.block with key := t.block.key, keyLen := t.block.keyLen, idIn := t.block.idIn } } ∧
    t.block.keyLen = (if off.toNat = 0x02 then v else s.block.keyLen) ∧
    (∀ (i : Nat) (h : i < 16), t.block.key[i] = if off.toNat = 0x10 + i then v else s.block.key[i]) ∧
    (∀ (i : Nat) (h : i < 16), t.block.idIn[i] = if off.toNat = 0x20 + i then v else s.block.idIn[i]) ∧
    hostStep (.wr off v) t = .next t) ∧
  (∀ (c : Byte) (s : State), hostStep (.wr 0x00#8 c) s = command c s) ∧
  (∀ (c : Byte) (s t u : State), hostStep (.wr 0x00#8 c) s = .next t →
    u.config = t.config → u.block.key = t.block.key → u.block.keyLen = t.block.keyLen →
    u.block.idIn = t.block.idIn → u.block.idOut = t.block.idOut →
      hostStep (.wr 0x00#8 c) u = .next { u with block := t.block })

/-- The basic law of the window (rules R24, R25, R51, R54, R55): KEY_LEN and ID_IN read as last written, and a
write at an offset other than CMD's leaves every other offset alone. -/
def Obligations.ReadAfterWrite : Prop :=
  ∀ (off v : Byte) (s t : State), off ≠ 0x00#8 → hostStep (.wr off v) s = .next t →
    (off = 0x02#8 ∨ (0x20 ≤ off.toNat ∧ off.toNat ≤ 0x2F) → readWindow t.config false t.block off = v) ∧
    (∀ off' : Byte, off' ≠ off →
      readWindow t.config false t.block off' = readWindow s.config false s.block off')

/-- Rule R52: an access of another width than one byte is refused, with no read value and no change of state. -/
def Obligations.WideRefused : Prop :=
  (∀ (s : State) (off : Byte) (n : Nat) (rest : List Event), n ≠ 1 →
    s.pending = .access (.wide off n) :: rest → step s = .refused (.wideAccess off n)) ∧
  (∀ (c : Config) (off v : Byte) (n : Nat), n ≠ 1 →
    memRead c (hostAddress c off) n = some (.wide off n) ∧ memWrite c (hostAddress c off) n v = some (.wide off n)) ∧
  (∀ (c : Config) (off v : Byte),
    memRead c (hostAddress c off) 1 = some (.rd off) ∧ memWrite c (hostAddress c off) 1 v = some (.wr off v))

/-- Rules R7, R50: the window is the 256 bytes at `BASE`; a one-byte access elsewhere does not reach the block. -/
def Obligations.WindowAddresses : Prop :=
  (∀ (c : Config) (off : Byte), offsetOf c (hostAddress c off) = some off) ∧
  (∀ (c : Config) (a : Nat) (off : Byte), offsetOf c a = some off → a = hostAddress c off) ∧
  (∀ (c : Config) (a : Nat) (v : Byte), a < c.base ∨ c.base + 256 ≤ a →
    memRead c a 1 = none ∧ memWrite c a 1 v = none)

/-- Rule R66: the outcomes of a host step. A read returns `read(off)` and changes no state; a write ends in the
state of `write(off, v)` (rule R55) and returns nothing; a wide access is refused; nothing faults. An error that a
command detects is a next state in which STATUS alone is changed, to the code of the error (rule R205). -/
def Obligations.HostStepOutcomes : Prop :=
  (∀ (off : Byte) (s : State),
    hostStep (.rd off) s = .next { s with reads := s.reads ++ [readWindow s.config false s.block off] }) ∧
  (∀ (off v : Byte) (s : State), hostStep (.wr off v) s = .next (s.withBlock (
    if off = 0x00#8 then finish (commandOutcome s.config (snapshot s.block) v) s.block
    else storeWindow s.block off v))) ∧
  (∀ (c : Byte) (s : State) (e : CmdError), commandOutcome s.config (snapshot s.block) c = .error e →
    hostStep (.wr 0x00#8 c) s = .next { s with block := { s.block with valid := false, err := errCode e } }) ∧
  (∀ (off : Byte) (n : Nat) (s : State), hostStep (.wide off n) s = .refused (.wideAccess off n)) ∧
  (∀ (op : HostOp) (s : State) (f : Fault), hostStep op s ≠ .fault f)

/-- Rule R63: a command uses the values of KEY, KEY_LEN and ID_IN at its CMD write, and no later write at another
offset than CMD's changes its ID_OUT or STATUS. -/
def Obligations.InputSnapshot : Prop :=
  (∀ (c : Byte) (s : State), hostStep (.wr 0x00#8 c) s =
    .next (s.withBlock (finish (commandOutcome s.config (snapshot s.block) c) s.block))) ∧
  (∀ (op : HostOp) (s t : State), (∀ c, op ≠ .wr 0x00#8 c) → hostStep op s = .next t →
    t.block.idOut = s.block.idOut ∧ t.block.valid = s.block.valid ∧ t.block.err = s.block.err)

/-! ## Rules about the whole machine -/

/-- Rule R60: a run of steps takes the events to come one after the other, each on the state the one before it
left, and the accesses behind them stay. -/
def Obligations.RunTakesEventsInOrder : Prop :=
  ∀ (es rest : List Event) (s t : State),
    runEvents es (s.withPending rest) = .next t ↔
      Host.Core.run core es.length (s.withPending (es ++ rest)) = .next t

/-- Rules R23, R24, R25, R29, R30, R36: what alone can change each register. -/
def Obligations.OnlyTheseChange : Prop :=
  ∀ (s t : State), step s = .next t →
    (t.block.key = s.block.key ∨ s.pending.head? = some .reset ∨
      ∃ off v, s.pending.head? = some (.access (.wr off v)) ∧ 0x10 ≤ off.toNat ∧ off.toNat ≤ 0x1F) ∧
    (t.block.keyLen = s.block.keyLen ∨ s.pending.head? = some .reset ∨
      ∃ v, s.pending.head? = some (.access (.wr 0x02#8 v))) ∧
    (t.block.idIn = s.block.idIn ∨ s.pending.head? = some .reset ∨
      ∃ off v, s.pending.head? = some (.access (.wr off v)) ∧ 0x20 ≤ off.toNat ∧ off.toNat ≤ 0x2F) ∧
    (t.block.idOut = s.block.idOut ∨ s.pending.head? = some .reset ∨
      ∃ c, s.pending.head? = some (.access (.wr 0x00#8 c)) ∧ (c = 0x01#8 ∨ c = 0x02#8) ∧ t.block.valid = true) ∧
    ((t.block.valid = s.block.valid ∧ t.block.err = s.block.err) ∨ s.pending.head? = some .reset ∨
      ∃ c, s.pending.head? = some (.access (.wr 0x00#8 c))) ∧
    t.config = s.config

/-- The invariant of the registers that every step keeps (rules R29, R31, R33, R181, R204, R205): ERR is one of
the four codes; VALID = 1 means ERR = 0 and an ID_OUT of version 4 or 7 and variant `10`; ID_OUT is an output or
its reset value. -/
def Obligations.StepKeepsInv : Prop :=
  ∀ s t : State, StateInv s → step s = .next t → StateInv t

/-- The invariant holds after reset, whatever the configuration (rule R230). -/
def Obligations.ResetInv : Prop :=
  StateInv State.reset ∧ ∀ c : Config, StateInv (State.resetWith c)

/-- Rules R30, R32, R33: where the invariant holds, STATUS reads one of five values. -/
def Obligations.StatusValues : Prop :=
  ∀ s : State, StateInv s →
    readWindow s.config false s.block 0x01#8 ∈ [0x00#8, 0x01#8, 0x10#8, 0x20#8, 0x30#8]

/-- Rules R52, R66, R244: with one-byte accesses only, every run goes on, for any number of steps. -/
def Obligations.SafeRunsGoOn : Prop :=
  ∀ (s : State) (n : Nat), Safe s → ∃ t, Host.Core.run core n s = .next t ∧ Safe t

/-- Rule R23: KEY is not revealed by reads. Two machines that differ in KEY alone return the same bytes to every
sequence of accesses that writes no CMD. -/
def Obligations.KeyNotReadable : Prop :=
  ∀ (s : State) (key' : Bytes 16) (n : Nat) (t : State),
    (∀ v, Event.access (.wr 0x00#8 v) ∉ s.pending) →
    Host.Core.run core n s = .next t →
      ∃ t', Host.Core.run core n { s with block := { s.block with key := key' } } = .next t' ∧ t'.reads = t.reads

/-- Rules R23, R35, R186: short of writing KEY, what a host sees depends on KEY only through the masks. Two machines
that differ in KEY alone return the same bytes, and keep equal ID_OUT and STATUS, in every run in which the two keys
have equal masks for the ID_IN of each ENCODE and DECODE. -/
def Obligations.KeySeenThroughMask : Prop :=
  ∀ (s : State) (key' : Bytes 16) (n : Nat) (t : State),
    (∀ off v, Event.access (.wr off v) ∈ s.pending → ¬ (0x10 ≤ off.toNat ∧ off.toNat ≤ 0x1F)) →
    (∀ (k : Nat) (m : State) (c : Byte), k < n → Host.Core.run core k s = .next m →
      m.pending.head? = some (.access (.wr 0x00#8 c)) → c = 0x01#8 ∨ c = 0x02#8 →
      m.block.key = s.block.key →
        mask (prfOf s.config.prf) s.block.key m.block.idIn = mask (prfOf s.config.prf) key' m.block.idIn) →
    Host.Core.run core n s = .next t →
      ∃ t', Host.Core.run core n { s with block := { s.block with key := key' } } = .next t' ∧
        t'.reads = t.reads ∧ t'.block.idOut = t.block.idOut ∧
        t'.block.valid = t.block.valid ∧ t'.block.err = t.block.err

/-! ## The datapath -/

/-- Rule R100: timestamp field, version nibble, variant bits and free bits are disjoint and cover the identifier:
every choice of the four is one identifier. -/
def Obligations.FieldPartition : Prop :=
  ∀ (k : Bytes 6) (v : BitVec 4) (r : BitVec 2) (f : BitVec 74),
    ∃! u : Bytes 16, ts u = k ∧ ver u = v ∧ var u = r ∧ free u = f

/-- Rule R105: FormatMsg byte by byte, its corner cases and its example. -/
def Obligations.MessageBytes : Prop :=
  (∀ u : Bytes 16,
    (formatMsg u)[0] = u[6] &&& 0x0F#8 ∧ (formatMsg u)[0].extractLsb' 4 4 = 0#4 ∧
    (formatMsg u)[0] = (u[6].extractLsb' 0 4).setWidth 8 ∧
    (formatMsg u)[1] = u[7] ∧
    (formatMsg u)[2] = u[8] &&& 0x3F#8 ∧ (formatMsg u)[2] = (u[8].extractLsb' 0 6).setWidth 8 ∧
    slice (formatMsg u) 3 7 = slice u 9 7) ∧
  (∀ u u' : Bytes 16, free u = free u' → formatMsg u = formatMsg u') ∧
  formatMsg (Vector.replicate 16 0x00#8) = Vector.replicate 10 0x00#8 ∧
  formatMsg (Vector.replicate 16 0xFF#8) = beBytes 10 0x0fff3fffffffffffffff ∧
  formatMsg (beBytes 16 0x018f2d9f9a2a7def8c3f7b1a2c4d5e6f) = beBytes 10 0x0def0c3f7b1a2c4d5e6f

/-- Rule R106: FormatMsg depends on Free and nothing else, and no two free-bit patterns share a message. -/
def Obligations.MessageIsFreeBits : Prop :=
  (∀ a b : Bytes 16, free a = free b ↔ formatMsg a = formatMsg b) ∧
  (∀ u : Bytes 16, (formatMsg u)[0].extractLsb' 4 4 = 0#4 ∧ (formatMsg u)[2].extractLsb' 6 2 = 0#2)

/-- Rule R107: XorTs lane by lane and as a number, its corner cases and its example. -/
def Obligations.MaskTimestamp : Prop :=
  (∀ (u : Bytes 16) (k : Bytes 6) (i : Nat) (h : i < 16),
    (xorTs u k)[i] = if h6 : i < 6 then u[i] ^^^ k[i] else u[i]) ∧
  (∀ (u : Bytes 16) (k : Bytes 6), ts48 (xorTs u k) = ts48 u ^^^ be k.toList) ∧
  (∀ u : Bytes 16, xorTs u (Vector.replicate 6 0x00#8) = u) ∧
  (∀ (u : Bytes 16) (i : Nat) (h : i < 6), (xorTs u (Vector.replicate 6 0xFF#8))[i] = ~~~u[i]) ∧
  (∀ u : Bytes 16, ts48 (xorTs u (ts u)) = 0) ∧
  ts (xorTs (beBytes 16 0x018f2d9f9a2a7def8c3f7b1a2c4d5e6f) (beBytes 6 0x25ecea1fe5e0)) = beBytes 6 0x2463c7807fca

/-- Rule R108: SetVV, bit by bit, when it changes nothing, and its corner cases. -/
def Obligations.RewriteControlBits : Prop :=
  (∀ (u : Bytes 16) (v : BitVec 4),
    (setVV u v)[6] = (v.setWidth 8 <<< 4) ||| (u[6] &&& 0x0F#8) ∧
    (setVV u v)[8] = 0x80#8 ||| (u[8] &&& 0x3F#8) ∧
    ∀ (i : Nat) (h : i < 16), i ≠ 6 → i ≠ 8 → (setVV u v)[i] = u[i]) ∧
  (∀ u : Bytes 16, (setVV u 4#4)[6] = 0x40#8 ||| (u[6] &&& 0x0F#8) ∧
    (setVV u 7#4)[6] = 0x70#8 ||| (u[6] &&& 0x0F#8)) ∧
  (∀ (u u' : Bytes 16) (v : BitVec 4), ts u = ts u' → free u = free u' → setVV u v = setVV u' v) ∧
  (∀ (u : Bytes 16) (v : BitVec 4), setVV u v = u ↔ ver u = v ∧ var u = 0b10#2) ∧
  (∀ u : Bytes 16, u[6] = 0xFF#8 → u[8] = 0xFF#8 →
    (setVV u 4#4)[6] = 0x4F#8 ∧ (setVV u 4#4)[8] = 0xBF#8 ∧ (setVV u 7#4)[6] = 0x7F#8 ∧ (setVV u 7#4)[8] = 0xBF#8) ∧
  (∀ u : Bytes 16, u[6] = 0x00#8 → u[8] = 0x00#8 →
    (setVV u 4#4)[6] = 0x40#8 ∧ (setVV u 4#4)[8] = 0x80#8 ∧ (setVV u 7#4)[6] = 0x70#8 ∧ (setVV u 7#4)[8] = 0x80#8) ∧
  (∀ u : Bytes 16, u[6] = 0x7d#8 → u[8] = 0x8c#8 → (setVV u 4#4)[6] = 0x4d#8 ∧ (setVV u 4#4)[8] = 0x8c#8)

/-- Rule R110: the six laws of the field functions. They hold for every target version, 4 and 7 among them. -/
def Obligations.FieldLaws : Prop :=
  ∀ (u : Bytes 16) (k k' : Bytes 6) (v w : BitVec 4),
    (xorTs (xorTs u k) k = u ∧ xorTs (xorTs u k) k' = xorTs u (xorBytes k k')) ∧
    setVV (setVV u v) w = setVV u w ∧
    setVV (xorTs u k) v = xorTs (setVV u v) k ∧
    (free (xorTs u k) = free u ∧ free (setVV u v) = free u) ∧
    (formatMsg (xorTs u k) = formatMsg u ∧ formatMsg (setVV u v) = formatMsg u) ∧
    (ver (setVV u v) = v ∧ var (setVV u v) = 0b10#2 ∧ ts (setVV u v) = ts u)

/-- Rules R132, R134, R136: the key in the primitive's order, the KeyedHash output and the mask, byte by byte and
on the rules' examples. -/
def Obligations.KeyedHashBytes : Prop :=
  (∀ (key : Bytes 16) (i : Nat) (h : i < 8),
    (primitiveKey key)[i] = key[7 - i] ∧ (primitiveKey key)[8 + i] = key[15 - i]) ∧
  (∀ (prf : Prf) (key : Bytes 16) (msg : List Byte) (i : Nat) (h : i < 8),
    (keyedHash prf key msg)[i] = (prf (primitiveKey key) msg)[7 - i]) ∧
  (∀ (prf : Prf) (key u : Bytes 16) (i : Nat) (h : i < 6),
    (mask prf key u)[i] = (keyedHash prf key (formatMsg u).toList)[2 + i]) ∧
  primitiveKey (beBytes 16 0x0123456789abcdeffedcba9876543210) = beBytes 16 0xefcdab89674523011032547698badcfe ∧
  referencePrf (beBytes 16 0xefcdab89674523011032547698badcfe) (beBytes 10 0x0def0c3f7b1a2c4d5e6f).toList =
    beBytes 8 0xe0e51feaec252cb7 ∧
  keyedHash referencePrf (beBytes 16 0x0123456789abcdeffedcba9876543210)
    (beBytes 10 0x0def0c3f7b1a2c4d5e6f).toList = beBytes 8 0xb72c25ecea1fe5e0 ∧
  mask referencePrf (beBytes 16 0x0123456789abcdeffedcba9876543210)
    (beBytes 16 0x018f2d9f9a2a7def8c3f7b1a2c4d5e6f) = beBytes 6 0x25ecea1fe5e0

/-- Rule R139: the word form of KeyedHash and of the mask under the reference PRF, and the two identities behind it. -/
def Obligations.KeyedHashWordForm : Prop :=
  (∀ s : Bytes 8, le (rev s).toList = be s.toList) ∧
  (∀ t : Nat, rev (leBytes 8 t) = beBytes 8 t) ∧
  (∀ (key : Bytes 16) (msg : List Byte),
    keyedHash referencePrf key msg =
      beBytes 8 (sipHash24 (BitVec.ofNat 64 (be (slice key 0 8).toList))
        (BitVec.ofNat 64 (be (slice key 8 8).toList)) msg).toNat) ∧
  (∀ key u : Bytes 16,
    mask referencePrf key u =
      beBytes 6 ((sipHash24 (BitVec.ofNat 64 (be (slice key 0 8).toList))
        (BitVec.ofNat 64 (be (slice key 8 8).toList)) (formatMsg u).toList).toNat % 2 ^ 48))

/-- Rule R149: on a 10-byte message compression runs over exactly two words; and the rule's trace. -/
def Obligations.SipTenBytes : Prop :=
  (∀ (k0 k1 : Word64) (m : Bytes 10),
    sipHash24 k0 k1 m.toList = sipTag (sipFinalRounds (sipCompress
      (sipCompress (sipInit k0 k1) (BitVec.ofNat 64 (le (slice m 0 8).toList)))
      (0x0A00000000000000#64 ||| (m[9].setWidth 64 <<< 8) ||| m[8].setWidth 64)))) ∧
  (let s0 := sipInit 0x0123456789abcdef#64 0xfedcba9876543210#64
   let s1 := sipCompress s0 0x4d2c1a7b3f0cef0d#64
   let s2 := sipCompress s1 0x0a00000000006f5e#64
   let s3 := sipFinalRounds s2
   s0 = ⟨0x724c2802f9d8a89a#64, 0x9ab3c8f918305d7d#64, 0x6d5a2202e7cebf8e#64, 0x8ab9defa0f205763#64⟩ ∧
   s1 = ⟨0x73e849353f6cf95f#64, 0xba90770db86d6c76#64, 0x6be65102a7be69de#64, 0x635a4b380b84f7ef#64⟩ ∧
   s2 = ⟨0xa5f63869a74f5490#64, 0x07e8f9985292d305#64, 0x143499e294a3029b#64, 0xaa488e9b4452a5ed#64⟩ ∧
   s3 = ⟨0x831f81be909da5b0#64, 0x8fb1963e9b239e02#64, 0xed3e899d73983a37#64, 0x56bcbbf19239e465#64⟩ ∧
   sipTag s3 = 0xb72c25ecea1fe5e0#64) ∧
  sipWords (beBytes 10 0x0def0c3f7b1a2c4d5e6f).toList = [0x4d2c1a7b3f0cef0d#64] ∧
  sipLastWord (beBytes 10 0x0def0c3f7b1a2c4d5e6f).toList = 0x0a00000000006f5e#64

/-- Rule R150 on the two published SipHash-2-4 vectors (V20 and V21 of 95_test_vectors.md). -/
def Obligations.PublishedSipVectors : Prop :=
  referencePrf (beBytes 16 0x000102030405060708090a0b0c0d0e0f) [] = beBytes 8 0x310e0edd47db6f72 ∧
  referencePrf (beBytes 16 0x000102030405060708090a0b0c0d0e0f)
    (beBytes 15 0x000102030405060708090a0b0c0d0e).toList = beBytes 8 0xe545be4961ca29a1

/-! ## The laws of the transform, for every PRF -/

/-- Rules R180, R181: ENCODE and DECODE keep the free bits, with bytes 7 and 9 to 15, and tag their outputs with
version 4 or 7 and variant `10`. -/
def Obligations.OutputFields : Prop :=
  ∀ (prf : Prf) (u key : Bytes 16) (v : BitVec 4), v = 4#4 ∨ v = 7#4 →
    free (xcode prf u key v) = free u ∧ (xcode prf u key v)[7] = u[7] ∧
    (∀ (i : Nat) (h : i < 16), 9 ≤ i → (xcode prf u key v)[i] = u[i]) ∧
    ver (xcode prf u key v) = v ∧ var (xcode prf u key v) = 0b10#2

/-- Rule R182: the message and the mask of an output are those of the input. -/
def Obligations.MaskInvariance : Prop :=
  ∀ (prf : Prf) (u key : Bytes 16) (w : BitVec 4), w = 4#4 ∨ w = 7#4 →
    formatMsg (xcode prf u key w) = formatMsg u ∧ mask prf key (xcode prf u key w) = mask prf key u

/-- Rules R183, R184, R185: the round trip, its reverse, and the double commands, under one key and any PRF; and
exactly when the round trip gives back its input. -/
def Obligations.RoundTrip : Prop :=
  (∀ (prf : Prf) (u key : Bytes 16) (v w : BitVec 4), (v = 4#4 ∨ v = 7#4) → (w = 4#4 ∨ w = 7#4) →
    xcode prf (xcode prf u key v) key w = setVV u w) ∧
  (∀ (prf : Prf) (u key : Bytes 16),
    (xcode prf (xcode prf u key 4#4) key 7#4 = u ↔ ver u = 7#4 ∧ var u = 0b10#2) ∧
    (xcode prf (xcode prf u key 7#4) key 4#4 = u ↔ ver u = 4#4 ∧ var u = 0b10#2)) ∧
  (∀ (prf : Prf) (u key : Bytes 16),
    ts (xcode prf (xcode prf u key 4#4) key 4#4) = ts u ∧ ver (xcode prf (xcode prf u key 4#4) key 4#4) = 4#4)

/-- Rule R186: outputs under two keys differ in bytes 0 to 5 alone, by the exclusive-or of the masks; a decode under
another key is right exactly when the masks are equal; and for every identifier some two keys have equal masks. -/
def Obligations.KeyDependence : Prop :=
  (∀ (prf : Prf) (u k1 k2 : Bytes 16),
    (∀ (i : Nat) (h : i < 16), 6 ≤ i → (xcode prf u k1 4#4)[i] = (xcode prf u k2 4#4)[i]) ∧
    xorBytes (ts (xcode prf u k1 4#4)) (ts (xcode prf u k2 4#4)) = xorBytes (mask prf k1 u) (mask prf k2 u) ∧
    xcode prf (xcode prf u k1 4#4) k2 7#4 =
      setVV (xorTs u (xorBytes (mask prf k1 u) (mask prf k2 u))) 7#4 ∧
    (xcode prf (xcode prf u k1 4#4) k2 7#4 = setVV u 7#4 ↔ mask prf k1 u = mask prf k2 u)) ∧
  (∀ (prf : Prf) (u : Bytes 16), ∃ k1 k2 : Bytes 16, k1 ≠ k2 ∧ mask prf k1 u = mask prf k2 u)

/-- The source's concrete vector (V1 of 95_test_vectors.md; the examples of rules R170 and R171), on the reference
instance. -/
def Obligations.SourceVector : Prop :=
  xcode referencePrf (beBytes 16 0x018f2d9f9a2a7def8c3f7b1a2c4d5e6f)
    (beBytes 16 0x0123456789abcdeffedcba9876543210) 4#4 = beBytes 16 0x2463c7807fca4def8c3f7b1a2c4d5e6f ∧
  xcode referencePrf (beBytes 16 0x2463c7807fca4def8c3f7b1a2c4d5e6f)
    (beBytes 16 0x0123456789abcdeffedcba9876543210) 7#4 = beBytes 16 0x018f2d9f9a2a7def8c3f7b1a2c4d5e6f

/-! ## Host sequences -/

/-- Rule R87: what `setkey`, `setid`, `getout` and `movout` leave, in any state, no other host's access between
their transactions (rule R216). -/
def Obligations.PseudoInstructions : Prop :=
  (∀ (s : State) (k : Bytes 16),
    runAsm [.setkey k] s = .next { s with block := { s.block with key := k, keyLen := 16#8 } }) ∧
  (∀ (s : State) (u : Bytes 16), runAsm [.setid u] s = .next { s with block := { s.block with idIn := u } }) ∧
  (∀ s : State, runAsm [.getout] s = .next { s with reads := s.reads ++ s.block.idOut.toList }) ∧
  (∀ s : State, runAsm [.movout] s =
    .next { s with block := { s.block with idIn := s.block.idOut }, reads := s.reads ++ s.block.idOut.toList })

/-- Rule R187: the host-level round trip, from any state and any PRF. -/
def Obligations.HostRoundTrip : Prop :=
  ∀ (s : State) (k x : Bytes 16), (s.config.strictVersion = false ∨ ver x = 7#4) →
    ∃ t, runAsm [.setkey k, .setid x, .encode, .movout, .decode] s = .next t ∧
      t.block.idOut = setVV x 7#4 ∧ readWindow t.config false t.block 0x01#8 = 0x01#8

/-! ## Reset -/

/-- Rule R230: reset gives every register its reset value, in the atomic machine and in an implementation, where it
abandons a command in progress; the constants stay. -/
def Obligations.ResetValues : Prop :=
  (∀ s : State, eventStep .reset s = .next { s with block :=
    { key := Vector.replicate 16 0x00#8, keyLen := 0x00#8, idIn := Vector.replicate 16 0x00#8,
      idOut := Vector.replicate 16 0x00#8, valid := false, err := 0x0#4 } }) ∧
  (∀ l : LatState, ∃ t, eventStep .reset l.arch = .next t ∧
    latStep (.bus .reset) l = .next { arch := t, inflight := none }) ∧
  (∀ s t : State, eventStep .reset s = .next t → State.reset.block = t.block ∧
    readWindow t.config false t.block 0x01#8 = 0x00#8 ∧ readWindow t.config false t.block 0x03#8 = 0x47#8 ∧
    readWindow t.config false t.block 0x04#8 = 0x01#8 ∧
    readWindow t.config false t.block 0x05#8 = readWindow s.config false s.block 0x05#8)

/-- Rule R232: after reset every ENCODE and DECODE raises InvalidKeyLength, STATUS = 0x10, until the host writes 16
to KEY_LEN. -/
def Obligations.KeyMustBeDeclared : Prop :=
  ∀ (c : Config) (es : List Event) (t : State), Event.access (.wr 0x02#8 0x10#8) ∉ es →
    runEvents es (State.resetWith c) = .next t →
      ∀ i : Instr, ∃ t', exec i t = .next t' ∧ t'.block.err = errCode .invalidKeyLength ∧
        readWindow t'.config false t'.block 0x01#8 = 0x10#8

/-! ## Implementations with LATENCY > 0 -/

/-- Rule R241: between the CMD write and completion STATUS reads 0x02 and ID_OUT its previous value, the command
holds the inputs as latched, and every write is ignored. -/
def Obligations.BusyBehaviour : Prop :=
  (∀ (l l' : LatState) (v : Byte), busy l = false → 0 < l.arch.config.latency →
    latStep (.bus (.access (.wr 0x00#8 v))) l = .next l' →
      busy l' = true ∧ latReadByte 0x01#8 l' = 0x02#8 ∧ l'.arch.block.idOut = l.arch.block.idOut ∧
      l'.inflight = some { left := l.arch.config.latency, byte := v, inputs := snapshot l.arch.block }) ∧
  (∀ (l : LatState) (off v : Byte), busy l = true → latStep (.bus (.access (.wr off v))) l = .next l) ∧
  (∀ (l l' : LatState) (e : LatEvent), busy l = true → latReadByte 0x01#8 l = 0x02#8 →
    latStep e l = .next l' → busy l' = true →
      latReadByte 0x01#8 l' = 0x02#8 ∧ l'.arch.block.idOut = l.arch.block.idOut ∧
      l'.inflight.map InFlight.inputs = l.inflight.map InFlight.inputs)

/-- Rules R31, R241: what every event of an implementation keeps: a command in progress has ticks left, VALID = 0 and
ERR = 0, and latched inputs equal to the registers; its completion leads to the atomic machine's invariant. The
invariant holds after reset. -/
def Obligations.LatencyKeepsInv : Prop :=
  (∀ (e : LatEvent) (l l' : LatState), LatInv l → latStep e l = .next l' → LatInv l') ∧
  (∀ c : Config, LatInv { arch := State.resetWith c, inflight := none })

/-- Rules R243, R244: a command completes after exactly `LATENCY` ticks, whatever the byte, the registers and the
outcome, and leaves what the atomic machine leaves in the step of its CMD write. -/
def Obligations.CompletesAfterLatency : Prop :=
  ∀ (l l' : LatState) (v : Byte), busy l = false →
    latStep (.bus (.access (.wr 0x00#8 v))) l = .next l' →
      (∀ k : Nat, k < l.arch.config.latency →
        ∃ m, latRun (List.replicate k .tick) l' = .next m ∧ busy m = true) ∧
      ∃ m, latRun (List.replicate l.arch.config.latency .tick) l' = .next m ∧ busy m = false ∧
        hostStep (.wr 0x00#8 v) l.arch = .next m.arch

/-- Rules R240, R241: a host that keeps the polling duty observes exactly the atomic behaviour. Its accesses, polls
left out, make the atomic machine return the same bytes and end with the registers the implementation has once
the command in progress has completed. -/
def Obligations.DutifulHostSeesAtomic : Prop :=
  ∀ (es : List LatEvent) (l l' : LatState), dutiful es l = true → latRun es l = .next l' →
    ∃ t, runEvents (atomicEvents es l) (settled l) = .next t ∧
      t.block = (settled l').block ∧ t.config = (settled l').config ∧
      t.reads = l.arch.reads ++ results es l
end

