-- ==== Sys2Proof/Laws/Bytes.lean ====
section
/-! SUPPORT. Byte sequences element by element, and their readings as numbers. -/

namespace Sys2Proof.Machine

@[simp] theorem getElem_slice {n : Nat} (u : Bytes n) (lo len : Nat) (h : lo + len ≤ n) (i : Nat) (hi : i < len) :
    (slice u lo len h)[i] = u[lo + i] := by simp [slice]

@[simp] theorem getElem_rev {n : Nat} (s : Bytes n) (i : Nat) (hi : i < n) : (rev s)[i] = s[n - 1 - i] := by
  simp [rev]

@[simp] theorem getElem_xorBytes {n : Nat} (a b : Bytes n) (i : Nat) (hi : i < n) :
    (xorBytes a b)[i] = a[i] ^^^ b[i] := by simp [xorBytes]

@[simp] theorem getElem_beBytes (n v i : Nat) (hi : i < n) :
    (beBytes n v)[i] = BitVec.ofNat 8 (v / 2 ^ (8 * (n - 1 - i))) := by simp [beBytes]

@[simp] theorem getElem_leBytes (n v i : Nat) (hi : i < n) :
    (leBytes n v)[i] = BitVec.ofNat 8 (v / 2 ^ (8 * i)) := by simp [leBytes]

/-- Reversal undoes itself. -/
theorem rev_rev {n : Nat} (s : Bytes n) : rev (rev s) = s := by
  refine Vector.ext fun i hi => ?_
  simp only [getElem_rev]
  congr 1
  omega

/-- The little-endian reading of a concatenation. -/
theorem le_append (a b : List Byte) : le (a ++ b) = le a + 2 ^ (8 * a.length) * le b := by
  induction a with
  | nil => simp [le]
  | cons x a ih =>
    simp only [List.cons_append, le, ih, List.length_cons]
    rw [show 8 * (a.length + 1) = 8 + 8 * a.length by ring, pow_add]
    ring

/-- A reading of `n` bytes is below `2 ^ (8 n)`. -/
theorem le_lt (s : List Byte) : le s < 2 ^ (8 * s.length) := by
  induction s with
  | nil => simp [le]
  | cons x s ih =>
    have hx := x.isLt
    have hp : 2 ^ (8 * (s.length + 1)) = 2 ^ 8 * 2 ^ (8 * s.length) := by rw [← pow_add]; congr 1; ring
    simp only [le, List.length_cons, hp]
    omega

end Sys2Proof.Machine
end

