-- ==== Sys2Proof/Laws/State.lean ====
section
/-! SUPPORT. One lemma per field and per update of the machine and of its registers. -/

namespace Sys2Proof.Machine

@[simp] theorem withBlock_block (s : State) (b : BlockState) : (s.withBlock b).block = b := rfl
@[simp] theorem withBlock_config (s : State) (b : BlockState) : (s.withBlock b).config = s.config := rfl
@[simp] theorem withBlock_pending (s : State) (b : BlockState) : (s.withBlock b).pending = s.pending := rfl
@[simp] theorem withBlock_reads (s : State) (b : BlockState) : (s.withBlock b).reads = s.reads := rfl
@[simp] theorem withBlock_withBlock (s : State) (b b' : BlockState) :
    (s.withBlock b).withBlock b' = s.withBlock b' := rfl
@[simp] theorem withBlock_self (s : State) : s.withBlock s.block = s := rfl

@[simp] theorem withPending_block (s : State) (es : List Event) : (s.withPending es).block = s.block := rfl
@[simp] theorem withPending_config (s : State) (es : List Event) : (s.withPending es).config = s.config := rfl
@[simp] theorem withPending_pending (s : State) (es : List Event) : (s.withPending es).pending = es := rfl
@[simp] theorem withPending_reads (s : State) (es : List Event) : (s.withPending es).reads = s.reads := rfl
@[simp] theorem withPending_withPending (s : State) (es es' : List Event) :
    (s.withPending es).withPending es' = s.withPending es' := rfl
@[simp] theorem withPending_self (s : State) : s.withPending s.pending = s := rfl
theorem withPending_withBlock (s : State) (b : BlockState) (es : List Event) :
    (s.withBlock b).withPending es = (s.withPending es).withBlock b := rfl

@[simp] theorem hostRead_block (off : Byte) (s : State) : (hostRead off s).block = s.block := rfl
@[simp] theorem hostRead_config (off : Byte) (s : State) : (hostRead off s).config = s.config := rfl
@[simp] theorem hostRead_pending (off : Byte) (s : State) : (hostRead off s).pending = s.pending := rfl
@[simp] theorem hostRead_reads (off : Byte) (s : State) :
    (hostRead off s).reads = s.reads ++ [readWindow s.config false s.block off] := rfl

@[simp] theorem applyReset_block (s : State) : (applyReset s).block = BlockState.reset := rfl
@[simp] theorem applyReset_config (s : State) : (applyReset s).config = s.config := rfl
@[simp] theorem applyReset_pending (s : State) : (applyReset s).pending = s.pending := rfl
@[simp] theorem applyReset_reads (s : State) : (applyReset s).reads = s.reads := rfl

@[simp] theorem completeOk_key (o : Bytes 16) (b : BlockState) : (completeOk o b).key = b.key := rfl
@[simp] theorem completeOk_keyLen (o : Bytes 16) (b : BlockState) : (completeOk o b).keyLen = b.keyLen := rfl
@[simp] theorem completeOk_idIn (o : Bytes 16) (b : BlockState) : (completeOk o b).idIn = b.idIn := rfl
@[simp] theorem completeOk_idOut (o : Bytes 16) (b : BlockState) : (completeOk o b).idOut = o := rfl
@[simp] theorem completeOk_valid (o : Bytes 16) (b : BlockState) : (completeOk o b).valid = true := rfl
@[simp] theorem completeOk_err (o : Bytes 16) (b : BlockState) : (completeOk o b).err = 0x0#4 := rfl

@[simp] theorem raiseError_key (e : CmdError) (b : BlockState) : (raiseError e b).key = b.key := rfl
@[simp] theorem raiseError_keyLen (e : CmdError) (b : BlockState) : (raiseError e b).keyLen = b.keyLen := rfl
@[simp] theorem raiseError_idIn (e : CmdError) (b : BlockState) : (raiseError e b).idIn = b.idIn := rfl
@[simp] theorem raiseError_idOut (e : CmdError) (b : BlockState) : (raiseError e b).idOut = b.idOut := rfl
@[simp] theorem raiseError_valid (e : CmdError) (b : BlockState) : (raiseError e b).valid = false := rfl
@[simp] theorem raiseError_err (e : CmdError) (b : BlockState) : (raiseError e b).err = errCode e := rfl

@[simp] theorem finish_key (r : Except CmdError (Bytes 16)) (b : BlockState) : (finish r b).key = b.key := by
  cases r <;> rfl
@[simp] theorem finish_keyLen (r : Except CmdError (Bytes 16)) (b : BlockState) :
    (finish r b).keyLen = b.keyLen := by cases r <;> rfl
@[simp] theorem finish_idIn (r : Except CmdError (Bytes 16)) (b : BlockState) : (finish r b).idIn = b.idIn := by
  cases r <;> rfl

@[simp] theorem snapshot_key (b : BlockState) : (snapshot b).key = b.key := rfl
@[simp] theorem snapshot_keyLen (b : BlockState) : (snapshot b).keyLen = b.keyLen := rfl
@[simp] theorem snapshot_idIn (b : BlockState) : (snapshot b).idIn = b.idIn := rfl

end Sys2Proof.Machine
end

