-- ==== Sys2Proof/Laws/Codec.lean ====
section
/-! SUPPORT. The outcomes of commands: when each arises, and what `finish` writes for it. -/

namespace Sys2Proof.Machine

@[simp] theorem finish_ok (o : Bytes 16) (b : BlockState) : finish (.ok o) b = completeOk o b := rfl
@[simp] theorem finish_error (e : CmdError) (b : BlockState) : finish (.error e) b = raiseError e b := rfl

theorem completeOk_eq (o : Bytes 16) (b : BlockState) :
    completeOk o b = { b with idOut := o, valid := true, err := 0x0#4 } := rfl
theorem raiseError_eq (e : CmdError) (b : BlockState) :
    raiseError e b = { b with valid := false, err := errCode e } := rfl

@[simp] theorem errCode_invalidKeyLength : errCode .invalidKeyLength = 0x1#4 := rfl
@[simp] theorem errCode_malformedIdentifier : errCode .malformedIdentifier = 0x2#4 := rfl
@[simp] theorem errCode_illegalCommand : errCode .illegalCommand = 0x3#4 := rfl

/-- A wrong key length is reported before anything else is looked at (rule R130). -/
theorem codecOutcome_badLength (c : Config) (i : CmdInputs) (want v : BitVec 4) (h : i.keyLen ≠ 16#8) :
    codecOutcome c i want v = .error .invalidKeyLength := by simp [codecOutcome, h]

/-- A strict instance reports a wrong version (rule R172). -/
theorem codecOutcome_badVersion (c : Config) (i : CmdInputs) (want v : BitVec 4) (hk : i.keyLen = 16#8)
    (hs : c.strictVersion = true) (hv : ver i.idIn ≠ want) :
    codecOutcome c i want v = .error .malformedIdentifier := by simp [codecOutcome, hk, hs, hv]

/-- Otherwise the input is transformed (rule R174). -/
theorem codecOutcome_ok (c : Config) (i : CmdInputs) (want v : BitVec 4) (hk : i.keyLen = 16#8)
    (hv : c.strictVersion = true → ver i.idIn = want) :
    codecOutcome c i want v = .ok (xcode (prfOf c.prf) i.idIn i.key v) := by
  unfold codecOutcome
  rw [if_neg (by simpa using hk), if_neg fun h => h.2 (hv h.1)]

/-- Everything the checks and the transform can answer. -/
theorem codecOutcome_cases (c : Config) (i : CmdInputs) (want v : BitVec 4) :
    (i.keyLen ≠ 16#8 ∧ codecOutcome c i want v = .error .invalidKeyLength) ∨
    (i.keyLen = 16#8 ∧ c.strictVersion = true ∧ ver i.idIn ≠ want ∧
      codecOutcome c i want v = .error .malformedIdentifier) ∨
    (i.keyLen = 16#8 ∧ (c.strictVersion = true → ver i.idIn = want) ∧
      codecOutcome c i want v = .ok (xcode (prfOf c.prf) i.idIn i.key v)) := by
  by_cases hk : i.keyLen = 16#8
  · by_cases hv : c.strictVersion = true → ver i.idIn = want
    · exact .inr (.inr ⟨hk, hv, codecOutcome_ok c i want v hk hv⟩)
    · rw [Classical.not_imp] at hv
      exact .inr (.inl ⟨hk, hv.1, hv.2, codecOutcome_badVersion c i want v hk hv.1 hv.2⟩)
  · exact .inl ⟨hk, codecOutcome_badLength c i want v hk⟩

/-- A byte decodes to a command exactly when it is that command's byte. -/
theorem decodeByte_eq_ok {c : Byte} {i : Instr} : decodeByte c = .ok i ↔ c = encodeByte i := by
  constructor
  · intro h
    simp only [decodeByte, opcodeTable, List.find?] at h
    rw [show c &&& 0xFF#8 = c from BitVec.and_allOnes (x := c)] at h
    split at h
    · next hf =>
      cases h
      split at hf
      · next h1 => cases hf; simpa [encodeByte] using h1
      · split at hf
        · next h2 => cases hf; simpa [encodeByte] using h2
        · cases hf
    · cases h
  · rintro rfl
    cases i <;> rfl

@[simp] theorem commandOutcome_encode (c : Config) (i : CmdInputs) :
    commandOutcome c i 0x01#8 = codecOutcome c i 7#4 4#4 := rfl
@[simp] theorem commandOutcome_decode (c : Config) (i : CmdInputs) :
    commandOutcome c i 0x02#8 = codecOutcome c i 4#4 7#4 := rfl

theorem commandOutcome_illegal {byte : Byte} (h1 : byte ≠ 0x01#8) (h2 : byte ≠ 0x02#8) (c : Config) (i : CmdInputs) :
    commandOutcome c i byte = .error .illegalCommand := by
  unfold commandOutcome
  split
  · next h => exact absurd (decodeByte_eq_ok.1 h) h1
  · next h => exact absurd (decodeByte_eq_ok.1 h) h2
  · rfl

/-- Everything a command byte can do: ENCODE's outcome, DECODE's, or IllegalCommand. -/
theorem commandOutcome_cases (c : Config) (i : CmdInputs) (byte : Byte) :
    (byte = 0x01#8 ∧ commandOutcome c i byte = codecOutcome c i 7#4 4#4) ∨
    (byte = 0x02#8 ∧ commandOutcome c i byte = codecOutcome c i 4#4 7#4) ∨
    (byte ≠ 0x01#8 ∧ byte ≠ 0x02#8 ∧ commandOutcome c i byte = .error .illegalCommand) := by
  by_cases h1 : byte = 0x01#8
  · subst h1; exact .inl ⟨rfl, rfl⟩
  · by_cases h2 : byte = 0x02#8
    · subst h2; exact .inr (.inl ⟨rfl, rfl⟩)
    · exact .inr (.inr ⟨h1, h2, commandOutcome_illegal h1 h2 c i⟩)

end Sys2Proof.Machine
end

