-- ==== Sys2Proof/Laws/Fields.lean ====
section
/-! SUPPORT. The field functions element by element, and the transform as masking and rewriting. -/

namespace Sys2Proof.Machine

@[simp] theorem getElem_ts (u : Bytes 16) (i : Nat) (hi : i < 6) : (ts u)[i] = u[i] := by simp [ts]

theorem getElem_xorTs (u : Bytes 16) (k : Bytes 6) (i : Nat) (hi : i < 16) :
    (xorTs u k)[i] = if h : i < 6 then u[i] ^^^ k[i] else u[i] := by simp [xorTs]

@[simp] theorem getElem_xorTs_lo (u : Bytes 16) (k : Bytes 6) (i : Nat) (hi : i < 6) :
    (xorTs u k)[i] = u[i] ^^^ k[i] := by simp [getElem_xorTs, hi]

@[simp] theorem getElem_xorTs_hi (u : Bytes 16) (k : Bytes 6) (i : Nat) (hi : i < 16) (h6 : 6 ≤ i) :
    (xorTs u k)[i] = u[i] := by simp [getElem_xorTs, Nat.not_lt.mpr h6]

theorem getElem_setVV (u : Bytes 16) (v : BitVec 4) (i : Nat) (hi : i < 16) :
    (setVV u v)[i] =
      if i = 6 then (v.setWidth 8 <<< 4) ||| (u[i] &&& 0x0F#8)
      else if i = 8 then 0x80#8 ||| (u[i] &&& 0x3F#8)
      else u[i] := by simp [setVV]

@[simp] theorem getElem_setVV_six (u : Bytes 16) (v : BitVec 4) :
    (setVV u v)[6] = (v.setWidth 8 <<< 4) ||| (u[6] &&& 0x0F#8) := by simp [getElem_setVV]

@[simp] theorem getElem_setVV_eight (u : Bytes 16) (v : BitVec 4) :
    (setVV u v)[8] = 0x80#8 ||| (u[8] &&& 0x3F#8) := by simp [getElem_setVV]

theorem getElem_setVV_other (u : Bytes 16) (v : BitVec 4) (i : Nat) (hi : i < 16) (h6 : i ≠ 6) (h8 : i ≠ 8) :
    (setVV u v)[i] = u[i] := by simp [getElem_setVV, h6, h8]

theorem getElem_formatMsg (u : Bytes 16) (i : Nat) (hi : i < 10) :
    (formatMsg u)[i] =
      if i = 0 then u[6] &&& 0x0F#8
      else if i = 1 then u[7]
      else if i = 2 then u[8] &&& 0x3F#8
      else u[6 + i] := by simp [formatMsg]

/-- The transform is masking with `Mask(key, u)`, then rewriting (rules R136, R174). -/
theorem xcode_eq (prf : Prf) (u key : Bytes 16) (v : BitVec 4) :
    xcode prf u key v = setVV (xorTs u (mask prf key u)) v := rfl

/-- Bytes 6 to 15 of an output do not depend on PRF or key. -/
theorem getElem_xcode_hi (prf : Prf) (u key : Bytes 16) (v : BitVec 4) (i : Nat) (hi : i < 16) (h6 : 6 ≤ i) :
    (xcode prf u key v)[i] = (setVV u v)[i] := by
  simp only [xcode_eq, getElem_setVV, getElem_xorTs_hi _ _ i hi h6]

/-- Bytes 0 to 5 of an output are the input's under the mask. -/
theorem getElem_xcode_lo (prf : Prf) (u key : Bytes 16) (v : BitVec 4) (i : Nat) (hi : i < 6) :
    (xcode prf u key v)[i] = u[i] ^^^ (mask prf key u)[i] := by
  rw [xcode_eq, getElem_setVV_other _ _ i (by omega) (by omega) (by omega), getElem_xorTs_lo]

end Sys2Proof.Machine
end

