-- ==== Sys2Proof/Laws/Window.lean ====
section
/-! SUPPORT. What one host access can do: one lemma for each shared operation, which later proofs cite instead of unfolding it. -/

namespace Sys2Proof.Machine

/-- Only offset 0x00 is CMD. -/
theorem regAt_eq_cmd (off : Byte) : regAt off = .cmd ↔ off = 0x00#8 := by
  constructor
  · intro h
    by_contra h0
    have h0 : off.toNat ≠ 0x00 := fun h' => h0 (BitVec.eq_of_toNat_eq h')
    simp only [regAt, h0, if_false] at h
    split_ifs at h
  · rintro rfl
    rfl

/-- Only offset 0x01 is STATUS. -/
theorem regAt_eq_status (off : Byte) : regAt off = .status ↔ off = 0x01#8 := by
  constructor
  · intro h
    by_contra h0
    have h0 : off.toNat ≠ 0x01 := fun h' => h0 (BitVec.eq_of_toNat_eq h')
    simp only [regAt, h0, if_false] at h
    split_ifs at h
  · rintro rfl
    rfl

/-- Only offset 0x02 is KEY_LEN. -/
theorem regAt_eq_keyLen (off : Byte) : regAt off = .keyLen ↔ off = 0x02#8 := by
  constructor
  · intro h
    by_contra h0
    have h0 : off.toNat ≠ 0x02 := fun h' => h0 (BitVec.eq_of_toNat_eq h')
    simp only [regAt, h0, if_false] at h
    split_ifs at h
  · rintro rfl
    rfl

/-- The offsets of KEY (rule R23). -/
theorem regAt_eq_key (off : Byte) (i : Fin 16) : regAt off = .key i ↔ off.toNat = 0x10 + i.val := by
  have hi := i.isLt
  constructor
  · intro h
    unfold regAt at h
    dsimp only at h
    split_ifs at h
    cases h
    dsimp only
    omega
  · intro h
    simp only [regAt]
    split_ifs <;> first | (exfalso; omega) | (congr; omega)

/-- The offsets of ID_IN (rule R25). -/
theorem regAt_eq_idIn (off : Byte) (i : Fin 16) : regAt off = .idIn i ↔ off.toNat = 0x20 + i.val := by
  have hi := i.isLt
  constructor
  · intro h
    unfold regAt at h
    dsimp only at h
    split_ifs at h
    cases h
    dsimp only
    omega
  · intro h
    simp only [regAt]
    split_ifs <;> first | (exfalso; omega) | (congr; omega)

/-- The offsets of ID_OUT (rule R29). -/
theorem regAt_eq_idOut (off : Byte) (i : Fin 16) : regAt off = .idOut i ↔ off.toNat = 0x30 + i.val := by
  have hi := i.isLt
  constructor
  · intro h
    unfold regAt at h
    dsimp only at h
    split_ifs at h
    cases h
    dsimp only
    omega
  · intro h
    simp only [regAt]
    split_ifs <;> first | (exfalso; omega) | (congr; omega)

@[simp] theorem readWindow_status (c : Config) (busy : Bool) (b : BlockState) :
    readWindow c busy b 0x01#8 = statusByte b.err busy b.valid := rfl
@[simp] theorem readWindow_keyLen (c : Config) (busy : Bool) (b : BlockState) :
    readWindow c busy b 0x02#8 = b.keyLen := rfl
@[simp] theorem readWindow_blockId (c : Config) (busy : Bool) (b : BlockState) :
    readWindow c busy b 0x03#8 = 0x47#8 := rfl
@[simp] theorem readWindow_blockRev (c : Config) (busy : Bool) (b : BlockState) :
    readWindow c busy b 0x04#8 = 0x01#8 := rfl
@[simp] theorem readWindow_config (c : Config) (busy : Bool) (b : BlockState) :
    readWindow c busy b 0x05#8 = if c.strictVersion then 0x01#8 else 0x00#8 := rfl

/-- STATUS after success (rule R204), after each error (rule R205), and while a command is in progress (rule R241). -/
@[simp] theorem statusByte_success : statusByte 0x0#4 false true = 0x01#8 := by decide
@[simp] theorem statusByte_invalidKeyLength : statusByte 0x1#4 false false = 0x10#8 := by decide
@[simp] theorem statusByte_malformedIdentifier : statusByte 0x2#4 false false = 0x20#8 := by decide
@[simp] theorem statusByte_illegalCommand : statusByte 0x3#4 false false = 0x30#8 := by decide
@[simp] theorem statusByte_busy : statusByte 0x0#4 true false = 0x02#8 := by decide

/-- The meanings of both commands: the outcome on the snapshot of the inputs is written back (rules R63, R173). -/
theorem exec_eq (i : Instr) (s : State) :
    exec i s = .next (s.withBlock
      (finish (commandOutcome s.config (snapshot s.block) (encodeByte i)) s.block)) := by
  cases i <;> rfl

/-- A CMD write writes the outcome of its byte on the snapshot of the inputs. -/
theorem command_eq (c : Byte) (s : State) :
    command c s = .next (s.withBlock
      (finish (commandOutcome s.config (snapshot s.block) c) s.block)) := by
  unfold command commandOutcome
  split
  · next i h => rw [h]; cases i <;> rfl
  · next e h => rw [h]; rfl

/-- Everything a host write can do: a CMD write runs its command, any other stores its byte or does nothing. -/
theorem hostWrite_cases {off v : Byte} {s t : State} (h : hostWrite off v s = .next t) :
    (off = 0x00#8 ∧ command v s = .next t) ∨
    (off ≠ 0x00#8 ∧ t = s.withBlock (storeWindow s.block off v)) := by
  unfold hostWrite at h
  split at h
  · next hr => exact .inl ⟨(regAt_eq_cmd off).1 hr, h⟩
  · next hr =>
    refine .inr ⟨fun h0 => hr ((regAt_eq_cmd off).2 h0), ?_⟩
    simpa using h.symm

theorem hostWrite_cmd (c : Byte) (s : State) : hostWrite 0x00#8 c s = command c s := rfl

theorem hostWrite_other {off : Byte} (h : off ≠ 0x00#8) (v : Byte) (s : State) :
    hostWrite off v s = .next (s.withBlock (storeWindow s.block off v)) := by
  unfold hostWrite
  split
  · next hr => exact absurd ((regAt_eq_cmd off).1 hr) h
  · rfl

/-- Everything a store in the window can do: one byte of KEY or ID_IN, KEY_LEN, or nothing. -/
theorem storeWindow_cases (b : BlockState) (off v : Byte) :
    (∃ i, regAt off = .key i ∧ storeWindow b off v = { b with key := b.key.set i.val v i.isLt }) ∨
    (regAt off = .keyLen ∧ storeWindow b off v = { b with keyLen := v }) ∨
    (∃ i, regAt off = .idIn i ∧ storeWindow b off v = { b with idIn := b.idIn.set i.val v i.isLt }) ∨
    ((∀ i, regAt off ≠ .key i) ∧ regAt off ≠ .keyLen ∧ (∀ i, regAt off ≠ .idIn i) ∧ storeWindow b off v = b) := by
  unfold storeWindow
  cases regAt off <;> simp [storeReg]

@[simp] theorem storeWindow_idOut (b : BlockState) (off v : Byte) : (storeWindow b off v).idOut = b.idOut := by
  unfold storeWindow; cases regAt off <;> rfl
@[simp] theorem storeWindow_valid (b : BlockState) (off v : Byte) : (storeWindow b off v).valid = b.valid := by
  unfold storeWindow; cases regAt off <;> rfl
@[simp] theorem storeWindow_err (b : BlockState) (off v : Byte) : (storeWindow b off v).err = b.err := by
  unfold storeWindow; cases regAt off <;> rfl

/-- Everything a host access can do when it ends in a next state. -/
theorem hostStep_cases {op : HostOp} {s t : State} (h : hostStep op s = .next t) :
    (∃ off, op = .rd off ∧ t = hostRead off s) ∨
    (∃ c, op = .wr 0x00#8 c ∧
      t = s.withBlock (finish (commandOutcome s.config (snapshot s.block) c) s.block)) ∨
    (∃ off v, op = .wr off v ∧ off ≠ 0x00#8 ∧ t = s.withBlock (storeWindow s.block off v)) := by
  cases op with
  | rd off => exact .inl ⟨off, rfl, by simpa [hostStep] using h.symm⟩
  | wr off v =>
    obtain ⟨rfl, hc⟩ | ⟨h0, ht⟩ := hostWrite_cases h
    · rw [command_eq] at hc
      exact .inr (.inl ⟨v, rfl, by simpa using hc.symm⟩)
    · exact .inr (.inr ⟨off, v, rfl, h0, ht⟩)
  | wide off n => simp [hostStep] at h

/-- Everything an event can do when it ends in a next state. -/
theorem eventStep_cases {e : Event} {s t : State} (h : eventStep e s = .next t) :
    (e = .reset ∧ t = applyReset s) ∨
    (∃ off, e = .access (.rd off) ∧ t = hostRead off s) ∨
    (∃ c, e = .access (.wr 0x00#8 c) ∧
      t = s.withBlock (finish (commandOutcome s.config (snapshot s.block) c) s.block)) ∨
    (∃ off v, e = .access (.wr off v) ∧ off ≠ 0x00#8 ∧ t = s.withBlock (storeWindow s.block off v)) := by
  cases e with
  | reset => exact .inl ⟨rfl, by simpa [eventStep] using h.symm⟩
  | access op =>
    obtain ⟨off, rfl, ht⟩ | ⟨c, rfl, ht⟩ | ⟨off, v, rfl, h0, ht⟩ := hostStep_cases h
    · exact .inr (.inl ⟨off, rfl, ht⟩)
    · exact .inr (.inr (.inl ⟨c, rfl, ht⟩))
    · exact .inr (.inr (.inr ⟨off, v, rfl, h0, ht⟩))

/-- No event touches the accesses to come or the configuration. -/
theorem eventStep_keeps {e : Event} {s t : State} (h : eventStep e s = .next t) :
    t.pending = s.pending ∧ t.config = s.config := by
  obtain ⟨-, rfl⟩ | ⟨off, -, rfl⟩ | ⟨c, -, rfl⟩ | ⟨off, v, -, -, rfl⟩ := eventStep_cases h <;> exact ⟨rfl, rfl⟩

end Sys2Proof.Machine
end

