-- ==== Sys2Proof/Laws/Step.lean ====
section
/-! SUPPORT. What one step can do. -/

namespace Sys2Proof.Machine

theorem step_idle {s : State} (h : s.pending = []) : step s = .next s := by simp [step, h]

theorem step_event {s : State} {e : Event} {rest : List Event} (h : s.pending = e :: rest) :
    step s = eventStep e (s.withPending rest) := by simp [step, h]

/-- Everything a step can do when it ends in a next state: wait, or take the next event. -/
theorem step_cases {s t : State} (h : step s = .next t) :
    (s.pending = [] ∧ t = s) ∨
    (∃ e rest, s.pending = e :: rest ∧ eventStep e (s.withPending rest) = .next t) := by
  cases hp : s.pending with
  | nil => rw [step_idle hp] at h; exact .inl ⟨rfl, by simpa using h.symm⟩
  | cons e rest => rw [step_event hp] at h; exact .inr ⟨e, rest, rfl, h⟩

/-- A run goes on from where its first step ends. -/
theorem run_succ_next (n : Nat) {s t : State} (h : step s = .next t) :
    Host.Core.run core (n + 1) s = Host.Core.run core n t := by
  have h' : core.step s = .next t := h
  simp only [Host.Core.run, h']

/-- A run is refused where its first step is. -/
theorem run_succ_refused (n : Nat) {s : State} {r : Refusal} (h : step s = .refused r) :
    Host.Core.run core (n + 1) s = .refused r := by
  have h' : core.step s = .refused r := h
  simp only [Host.Core.run, h']

end Sys2Proof.Machine
end

