-- ==== Sys2Proof/Laws/HostProgram.lean ====
section
/-! SUPPORT. What one transaction of a host does, and sequences of transactions and of events one after the other. -/

namespace Sys2Proof.Machine

/-- A host's read, as the next access. -/
theorem hostDo_rd (off : Byte) (s : State) : hostDo (.rd off) s = .next (hostRead off s) := by
  unfold hostDo
  rw [step_event rfl]
  rfl

/-- A host's write at an offset other than CMD's, as the next access. -/
theorem hostDo_wr {off : Byte} (h : off ≠ 0x00#8) (v : Byte) (s : State) :
    hostDo (.wr off v) s = .next (s.withBlock (storeWindow s.block off v)) := by
  unfold hostDo
  rw [step_event rfl]
  show hostWrite off v _ = _
  rw [hostWrite_other h]
  rfl

/-- A host's write to CMD, as the next access. -/
theorem hostDo_cmd (c : Byte) (s : State) :
    hostDo (.wr 0x00#8 c) s =
      .next (s.withBlock (finish (commandOutcome s.config (snapshot s.block) c) s.block)) := by
  unfold hostDo
  rw [step_event rfl]
  show command c _ = _
  rw [command_eq]
  rfl

@[simp] theorem runAct_op (o : HostOp) (s : State) : runAct (.op o) s = hostDo o s := rfl
@[simp] theorem runAct_wrLast (off : Byte) (s : State) : runAct (.wrLast off) s = hostDo (.wr off (lastRead s)) s := rfl

theorem runActs_cons {a : HostAct} {s t : State} (h : runAct a s = .next t) (as : List HostAct) :
    runActs (a :: as) s = runActs as t := by simp only [runActs, h]

/-- Transactions in two parts. -/
theorem runActs_append {as : List HostAct} {s t : State} (h : runActs as s = .next t) (bs : List HostAct) :
    runActs (as ++ bs) s = runActs bs t := by
  induction as generalizing s with
  | nil => cases h; rfl
  | cons a as ih =>
    simp only [List.cons_append, runActs] at h ⊢
    cases ha : runAct a s with
    | next u => rw [ha] at h; exact ih h
    | fault f => exact nomatch f
    | refused r => rw [ha] at h; cases h

/-- Events in two parts. -/
theorem runEvents_append {es : List Event} {s t : State} (h : runEvents es s = .next t) (fs : List Event) :
    runEvents (es ++ fs) s = runEvents fs t := by
  induction es generalizing s with
  | nil => cases h; rfl
  | cons e es ih =>
    simp only [List.cons_append, runEvents] at h ⊢
    cases he : eventStep e s with
    | next u => rw [he] at h; exact ih h
    | fault f => exact nomatch f
    | refused r => rw [he] at h; cases h

end Sys2Proof.Machine
end

