-- ==== Sys2Proof/Laws/Latency.lean ====
section
/-! SUPPORT. What one event can do in an implementation with latency. -/

namespace Sys2Proof.Machine

/-- Everything an event can do in an implementation when it ends in a next state. -/
theorem latStep_cases {e : LatEvent} {l l' : LatState} (h : latStep e l = .next l') :
    (e = .tick ∧ l' = latTick l) ∨
    (e = .bus .reset ∧ l' = { arch := applyReset l.arch, inflight := none }) ∨
    (∃ off, e = .bus (.access (.rd off)) ∧
      l' = { l with arch := { l.arch with reads := l.arch.reads ++ [latReadByte off l] } }) ∨
    (∃ off v, e = .bus (.access (.wr off v)) ∧ busy l = true ∧ l' = l) ∨
    (∃ v, e = .bus (.access (.wr 0x00#8 v)) ∧ busy l = false ∧ l' = latStart v l) ∨
    (∃ off v, e = .bus (.access (.wr off v)) ∧ busy l = false ∧ off ≠ 0x00#8 ∧
      l' = { l with arch := l.arch.withBlock (storeWindow l.arch.block off v) }) := by
  cases e with
  | tick => exact .inl ⟨rfl, by simpa [latStep] using h.symm⟩
  | bus b =>
    cases b with
    | reset => exact .inr (.inl ⟨rfl, by simpa [latStep] using h.symm⟩)
    | access op =>
      cases op with
      | rd off => exact .inr (.inr (.inl ⟨off, rfl, by simpa [latStep, latAccess] using h.symm⟩))
      | wide off n => simp [latStep, latAccess] at h
      | wr off v =>
        simp only [latStep, latAccess] at h
        split at h
        · next hb => exact .inr (.inr (.inr (.inl ⟨off, v, rfl, hb, by simpa using h.symm⟩)))
        · next hb =>
          have hb : busy l = false := by simpa using hb
          split at h
          · next hr =>
            obtain rfl := (regAt_eq_cmd off).1 hr
            exact .inr (.inr (.inr (.inr (.inl ⟨v, rfl, hb, by simpa using h.symm⟩))))
          · next hr =>
            refine .inr (.inr (.inr (.inr (.inr ⟨off, v, rfl, hb, fun h0 => hr ((regAt_eq_cmd off).2 h0), ?_⟩))))
            simpa using h.symm

end Sys2Proof.Machine
end

