-- ==== Sys2Proof/Laws/PerInstr.lean ====
section
/-! SUPPORT. Statements made for every instruction of the opcode table. -/

namespace Sys2Proof.Laws.OpcodeRow

/-- The instruction is well formed and has exactly one row in the opcode map, whose mask takes in all 8 bits and
whose pattern is its encoded byte (rules R80, R81). -/
def Statement (i : Instr) : Prop :=
  i.wellFormed = true ∧
  opcodeTable.filter (fun r => r.instr == i) = [{ mask := 0xFF#8, pattern := encodeByte i, instr := i }]

theorem encode : Statement .encode := ⟨rfl, by decide⟩

theorem decode : Statement .decode := ⟨rfl, by decide⟩

end Sys2Proof.Laws.OpcodeRow
end

