-- ==== Sys2Proof/Tests/Slice0.lean ====
section
/-! SUPPORT. The model's own tests: the smoke test of WellFormed, decoding of written-out words, a few values from 95_test_vectors.md, and
for each statement with hypotheses a witness that meets them together. -/

namespace Sys2Proof.Tests

open Sys2Proof.Machine

/-! ## States to test on -/

/-- KEY and KEY_LEN of vector V1, a given ID_IN, and a given strictness. -/
def keyed (strict : Bool) (idIn : Nat) : State where
  block := { BlockState.reset with
    key := beBytes 16 0x0123456789abcdeffedcba9876543210, keyLen := 16#8, idIn := beBytes 16 idIn }
  config := { Config.reference with strictVersion := strict }
  pending := []
  reads := []

/-- Vector V1's version-7 identifier. -/
def v7 : Nat := 0x018f2d9f9a2a7def8c3f7b1a2c4d5e6f

/-- Vector V1's facade. -/
def v4 : Nat := 0x2463c7807fca4def8c3f7b1a2c4d5e6f

/-- The next access of the machine writes `c` to CMD. -/
def nextCmd (c : Byte) (s : State) : State := s.withPending [.access (.wr 0x00#8 c)]

/-- An implementation with a latency of 2 ticks. -/
def slow (s : State) : LatState where
  arch := { s with config := { s.config with latency := 2 } }
  inflight := none

/-- The state an outcome ends in. -/
def endState (o : Host.Outcome State Fault Refusal) : Option State :=
  match o with
  | .next t => some t
  | .fault _ => none
  | .refused _ => none

/-! ## WellFormed: an ill-formed term for each check -/

theorem test_wellFormed_instr : Instr.encode.wellFormed = true ∧ Instr.decode.wellFormed = true := by decide

/-- `wide` with a width of 1 is no host access (rule R66). -/
theorem test_wellFormed_wide_refused : HostOp.wellFormed (.wide 0x20#8 1) = false := by decide

theorem test_wellFormed_wide_accepted : HostOp.wellFormed (.wide 0x20#8 4) = true := by decide

/-- A word of 18 bits, and a read with DATA other than 0, are no transaction words (rule R85). -/
theorem test_wellFormed_txWord_refused :
    txWordWellFormed 0x20000 = false ∧ txWordWellFormed 0x03001 = false := by decide

theorem test_wellFormed_txWord_accepted :
    txWordWellFormed 0x10001 = true ∧ txWordWellFormed 0x03000 = true := by decide

/-! ## Decoding: words written out from rule R81 -/

theorem test_decode_encode_word : decodeTableWord 8 0b00000001 = some .encode := by decide

theorem test_decode_decode_word : decodeTableWord 8 0b00000010 = some .decode := by decide

/-- All 8 bits are decoded (V8 of 95_test_vectors.md): 0x00, 0x03, 0x81 and 0xFF are no commands. -/
theorem test_decode_illegal_words :
    decodeTableWord 8 0x00 = none ∧ decodeTableWord 8 0x03 = none ∧ decodeTableWord 8 0x81 = none ∧
    decodeTableWord 8 0xFF = none := by decide

theorem test_decode_no_byte : decode [] = .error .noByte := rfl

/-! ## One step of each command: V1 and V8 of 95_test_vectors.md -/

theorem test_encode_source_vector :
    (endState (exec .encode (keyed false v7))).map (fun t => (t.block.idOut, t.block.valid, t.block.err)) =
      some (beBytes 16 v4, true, 0x0#4) := by decide +kernel

theorem test_encode_strict_refuses_version_4 :
    (endState (exec .encode (keyed true v4))).map (fun t => readWindow t.config false t.block 0x01#8) =
      some 0x20#8 := by decide +kernel

theorem test_decode_source_vector :
    (endState (exec .decode (keyed false v4))).map (fun t => (t.block.idOut, t.block.valid, t.block.err)) =
      some (beBytes 16 v7, true, 0x0#4) := by decide +kernel

theorem test_decode_strict_refuses_version_7 :
    (endState (exec .decode (keyed true v7))).map (fun t => readWindow t.config false t.block 0x01#8) =
      some 0x20#8 := by decide +kernel

/-! ## The datapath: V2, V3, V4, V6 of 95_test_vectors.md -/

theorem test_formatMsg_fields :
    formatMsg (beBytes 16 0x00112233445566778899aabbccddeeff) = beBytes 10 0x06770899aabbccddeeff ∧
    ver (beBytes 16 0x00112233445566778899aabbccddeeff) = 6#4 ∧
    var (beBytes 16 0x00112233445566778899aabbccddeeff) = 0b10#2 := by decide

theorem test_setVV_bytes :
    setVV (beBytes 16 0xa5a5a5a5a5a5a5a5a5a5a5a5a5a5a5a5) 7#4 = beBytes 16 0xa5a5a5a5a5a575a5a5a5a5a5a5a5a5a5 ∧
    setVV (beBytes 16 0xffffffffffffffffffffffffffffffff) 4#4 = beBytes 16 0xffffffffffff4fffbfffffffffffffff := by
  decide

theorem test_xorTs_no_carry :
    ts (xorTs (beBytes 16 0xffffffffffff00000000000000000000) (beBytes 6 0x800000000001)) =
      beBytes 6 0x7ffffffffffe := by decide

theorem test_keyedHash_counting_key :
    keyedHash referencePrf (beBytes 16 0x000102030405060708090a0b0c0d0e0f) (beBytes 10 0x00010203040506070809).toList =
      beBytes 8 0xce4b293beabe1a4f := by decide +kernel

/-- The source's free bits of rule R104's example: `d`, `ef`, 001100, `3f7b1a2c4d5e6f`. -/
theorem test_free_example :
    free (beBytes 16 v7) = BitVec.ofNat 74 (((0xdef * 2 ^ 6 + 0b001100) * 2 ^ 56) + 0x3f7b1a2c4d5e6f) := by decide

/-! ## The window: boundaries of the register map (rule R22) -/

theorem test_regAt_boundaries :
    regAt 0x00#8 = .cmd ∧ regAt 0x01#8 = .status ∧ regAt 0x02#8 = .keyLen ∧ regAt 0x03#8 = .blockId ∧
    regAt 0x04#8 = .blockRev ∧ regAt 0x05#8 = .config ∧ regAt 0x06#8 = .reserved ∧ regAt 0x0F#8 = .reserved ∧
    regAt 0x10#8 = .key 0 ∧ regAt 0x1F#8 = .key 15 ∧ regAt 0x20#8 = .idIn 0 ∧ regAt 0x2F#8 = .idIn 15 ∧
    regAt 0x30#8 = .idOut 0 ∧ regAt 0x3F#8 = .idOut 15 ∧ regAt 0x40#8 = .reserved ∧ regAt 0xFF#8 = .reserved := by
  decide

/-- V9: KEY reads as zero after it is loaded, ID_IN as written, and the constants. -/
theorem test_read_boundaries :
    ([0x00#8, 0x02#8, 0x03#8, 0x04#8, 0x05#8, 0x0F#8, 0x10#8, 0x1F#8, 0x20#8, 0x2F#8, 0x3F#8, 0x40#8].map
      (readWindow (keyed true v7).config false (keyed true v7).block)) =
      [0x00#8, 0x10#8, 0x47#8, 0x01#8, 0x01#8, 0x00#8, 0x00#8, 0x00#8, 0x01#8, 0x6f#8, 0x00#8, 0x00#8] := by decide

/-- A write to ID_OUT is ignored, and one to KEY[15] stores its byte (rule R55). -/
theorem test_write_boundaries :
    hostStep (.wr 0x30#8 0x99#8) (keyed false v7) = .next (keyed false v7) ∧
    (endState (hostStep (.wr 0x1F#8 0x11#8) (keyed false v7))).map (fun t => t.block.key) =
      some (beBytes 16 0x0123456789abcdeffedcba9876543211) := ⟨rfl, by decide⟩

/-! ## Assembler lines (rules R86, R87), with P1's words -/

theorem test_parseAsm_wr8 :
    parseAsm ['w', 'r', '8', ' ', '0', 'x', '0', '0', ',', ' ', '0', 'x', '0', '1'] = some (.wr8 0x00#8 0x01#8) := by
  decide

theorem test_parseAsm_setkeylen :
    parseAsm ['s', 'e', 't', 'k', 'e', 'y', 'l', 'e', 'n', ' ', '1', '6'] = some (.setkeylen 16#8) := by decide

theorem test_parseHex32 :
    parseHex32 ['0', '1', '2', '3', '4', '5', '6', '7', '8', '9', 'a', 'b', 'c', 'd', 'e', 'f',
      'f', 'e', 'd', 'c', 'b', 'a', '9', '8', '7', '6', '5', '4', '3', '2', '1', '0'] =
      some (beBytes 16 0x0123456789abcdeffedcba9876543210) := by decide

/-- The last word of P1's `setkey`: `wr8 0x1F, 0x10`, then `wr8 0x02, 0x10`. -/
theorem test_expand_setkey :
    (expand (.setkey (beBytes 16 0x0123456789abcdeffedcba9876543210))).drop 15 =
      [.op (.wr 0x1F#8 0x10#8), .op (.wr 0x02#8 0x10#8)] := by decide

/-! ## Witnesses: a state and operands that meet the hypotheses of each statement -/

theorem witness_OpcodeMap : (0x00#8 : Byte) ≠ 0x01#8 ∧ (0x00#8 : Byte) ≠ 0x02#8 := by decide

theorem witness_DecodeEncode : decode [0x02#8, 0x07#8] = .ok (.decode, [0x07#8]) := rfl

theorem witness_StepRunsDecoded :
    (nextCmd 0x01#8 (keyed false v7)).pending = [.access (.wr 0x00#8 0x01#8)] ∧
    decodeByte 0x01#8 = .ok .encode := ⟨rfl, rfl⟩

theorem witness_IllegalBytes : (0xFF#8 : Byte) ≠ 0x01#8 ∧ (0xFF#8 : Byte) ≠ 0x02#8 := by decide

/-- A strict instance, so that the version premise has something to say. -/
theorem witness_EncodeResult :
    (keyed true v7).block.keyLen = 16#8 ∧
    ((keyed true v7).config.strictVersion = true → ver (keyed true v7).block.idIn = 7#4) := by decide

theorem witness_DecodeResult :
    (keyed true v4).block.keyLen = 16#8 ∧
    ((keyed true v4).config.strictVersion = true → ver (keyed true v4).block.idIn = 4#4) := by decide

/-- Two states that differ in ID_OUT alone. -/
theorem witness_CommandPseudocode :
    ∃ s s' t t' : State, s ≠ s' ∧ s.config = s'.config ∧ s.block.key = s'.block.key ∧
      s.block.keyLen = s'.block.keyLen ∧ s.block.idIn = s'.block.idIn ∧
      hostStep (.wr 0x00#8 0x01#8) s = .next t ∧ hostStep (.wr 0x00#8 0x01#8) s' = .next t' :=
  ⟨keyed false v7, { keyed false v7 with block := { (keyed false v7).block with idOut := beBytes 16 v4 } }, _, _,
    by decide, rfl, rfl, rfl, rfl, rfl, rfl⟩

/-- 15 is refused, 16 passes (V5). -/
theorem witness_KeyLengthCheck :
    (0x0F#8 : Byte) ≠ 16#8 ∧ (keyed false v7).block.keyLen = 16#8 ∧ ∃ t, exec .encode (keyed false v7) = .next t :=
  ⟨by decide, rfl, _, rfl⟩

theorem witness_StrictVersionCheck :
    (keyed true v7).config.strictVersion = true ∧ (keyed true v7).block.keyLen = 16#8 ∧
    ver (keyed true v7).block.idIn = 7#4 ∧ ver (keyed true v7).block.idIn ≠ 4#4 ∧
    ver (keyed true v4).block.idIn = 4#4 ∧ ver (keyed true v4).block.idIn ≠ 7#4 ∧
    (keyed false v7).config.strictVersion = false := by decide

theorem witness_StrictVersionCheck_same_version :
    ∃ t t' : State, (keyed true v7).config = (keyed true (v7 + 1)).config ∧
      (keyed true v7).block.keyLen = (keyed true (v7 + 1)).block.keyLen ∧
      ver (keyed true v7).block.idIn = ver (keyed true (v7 + 1)).block.idIn ∧
      exec .encode (keyed true v7) = .next t ∧ exec .encode (keyed true (v7 + 1)) = .next t' :=
  ⟨_, _, by decide, by decide, by decide, rfl, rfl⟩

/-- A successful command and an erroring one. -/
theorem witness_CommandFrame :
    (∃ t, exec .encode (keyed false v7) = .next t ∧ t.block.valid = true) ∧
    (∃ t, exec .decode (keyed true v7) = .next t ∧ t.block.valid = false) := by
  refine ⟨⟨_, rfl, ?_⟩, ⟨_, rfl, ?_⟩⟩ <;> decide +kernel

/-- The identifiers of V7 d: variant `10` and variant `11`. -/
theorem witness_VariantIgnored :
    ts (beBytes 16 0x018f2d9f9a2a7defcc3f7b1a2c4d5e6f) = ts (keyed false v7).block.idIn ∧
    ver (beBytes 16 0x018f2d9f9a2a7defcc3f7b1a2c4d5e6f) = ver (keyed false v7).block.idIn ∧
    free (beBytes 16 0x018f2d9f9a2a7defcc3f7b1a2c4d5e6f) = free (keyed false v7).block.idIn ∧
    beBytes 16 0x018f2d9f9a2a7defcc3f7b1a2c4d5e6f ≠ (keyed false v7).block.idIn ∧
    (∃ t, exec .encode (keyed false v7) = .next t ∧ t.block.valid = true) := by
  refine ⟨by decide, by decide, by decide, by decide, _, rfl, by decide +kernel⟩

theorem witness_NonStrictTotal :
    (keyed false v4).config.strictVersion = false ∧ (keyed false v4).block.keyLen = 16#8 ∧
    ver (keyed false v4).block.idIn ≠ 7#4 ∧ ver (keyed false v7).block.idIn ≠ 4#4 := by decide

theorem witness_ErrorOutcome :
    commandOutcome Config.reference (snapshot BlockState.reset) 0x01#8 = .error .invalidKeyLength ∧
    commandOutcome (keyed true v4).config (snapshot (keyed true v4).block) 0x01#8 = .error .malformedIdentifier ∧
    commandOutcome Config.reference (snapshot BlockState.reset) 0x00#8 = .error .illegalCommand := ⟨rfl, rfl, rfl⟩

/-- One CMD write for each clause (V8): illegal with KEY_LEN = 0; legal with KEY_LEN = 0; wrong version, both commands. -/
theorem witness_ErrorPriority :
    (∃ t, hostStep (.wr 0x00#8 0xFF#8) State.reset = .next t) ∧
    (State.reset.block.keyLen ≠ 16#8 ∧ ∃ t, hostStep (.wr 0x00#8 0x01#8) State.reset = .next t) ∧
    ((keyed true v4).block.keyLen = 16#8 ∧ (keyed true v4).config.strictVersion = true ∧
      ver (keyed true v4).block.idIn ≠ 7#4 ∧ ∃ t, hostStep (.wr 0x00#8 0x01#8) (keyed true v4) = .next t) ∧
    ((keyed true v7).block.keyLen = 16#8 ∧ (keyed true v7).config.strictVersion = true ∧
      ver (keyed true v7).block.idIn ≠ 4#4 ∧ ∃ t, hostStep (.wr 0x00#8 0x02#8) (keyed true v7) = .next t) :=
  ⟨⟨_, rfl⟩, ⟨by decide, _, rfl⟩, ⟨rfl, rfl, by decide, _, rfl⟩, ⟨rfl, rfl, by decide, _, rfl⟩⟩

theorem witness_Precision : (nextCmd 0x02#8 (keyed false v4)).pending = [.access (.wr 0x00#8 0x02#8)] := rfl

/-- The last offset of ID_IN, the first one behind it (WI), and CMD; the repeated command starts from a STATUS of
its own. -/
theorem witness_SideEffects :
    (0x2F#8 : Byte) ≠ 0x00#8 ∧ (0x30#8 : Byte) ≠ 0x00#8 ∧
    ∃ t u, hostStep (.wr 0x00#8 0x01#8) (keyed false v7) = .next t ∧
      u = { t with block := { t.block with valid := false } } ∧ u.config = t.config ∧ u.block.key = t.block.key ∧
      u.block.keyLen = t.block.keyLen ∧ u.block.idIn = t.block.idIn ∧ u.block.idOut = t.block.idOut :=
  ⟨by decide, by decide, _, _, rfl, rfl, rfl, rfl, rfl, rfl, rfl⟩

/-- KEY_LEN, both ends of ID_IN, and another offset. -/
theorem witness_ReadAfterWrite :
    (0x02#8 : Byte) ≠ 0x00#8 ∧ (∃ t, hostStep (.wr 0x02#8 0x10#8) State.reset = .next t) ∧
    (∃ t, hostStep (.wr 0x20#8 0x10#8) State.reset = .next t) ∧
    (∃ t, hostStep (.wr 0x2F#8 0x10#8) State.reset = .next t) ∧ (0x30#8 : Byte) ≠ 0x2F#8 :=
  ⟨by decide, ⟨_, rfl⟩, ⟨_, rfl⟩, ⟨_, rfl⟩, by decide⟩

theorem witness_WideRefused :
    (4 : Nat) ≠ 1 ∧ (State.reset.withPending [.access (.wide 0x30#8 4)]).pending = [.access (.wide 0x30#8 4)] :=
  ⟨by decide, rfl⟩

/-- The last address of the window, and the two next to it outside. -/
theorem witness_WindowAddresses :
    offsetOf { Config.reference with base := 0x100 } 0x1FF = some 0xFF#8 ∧
    (0xFF < ({ Config.reference with base := 0x100 } : Config).base) ∧
    (({ Config.reference with base := 0x100 } : Config).base + 256 ≤ 0x200) := by decide

theorem witness_HostStepOutcomes :
    commandOutcome Config.reference (snapshot BlockState.reset) 0x01#8 = .error .invalidKeyLength := rfl

theorem witness_InputSnapshot :
    (∀ c, HostOp.wr 0x2F#8 0x01#8 ≠ .wr 0x00#8 c) ∧ ∃ t, hostStep (.wr 0x2F#8 0x01#8) (keyed false v7) = .next t :=
  ⟨(fun c h => by cases h), _, rfl⟩

theorem witness_OnlyTheseChange : ∃ t, step (nextCmd 0x01#8 (keyed false v7)) = .next t := ⟨_, rfl⟩

theorem reset_blockInv : BlockInv BlockState.reset where
  errCode := by decide
  validOk h := by cases h
  idOutForm := .inr rfl
  freshStatus _ _ := rfl

theorem witness_StepKeepsInv :
    StateInv (nextCmd 0x01#8 State.reset) ∧ ∃ t, step (nextCmd 0x01#8 State.reset) = .next t :=
  ⟨reset_blockInv, _, rfl⟩

theorem witness_StatusValues : StateInv State.reset := reset_blockInv

theorem witness_SafeRunsGoOn :
    Safe (State.reset.withPending [.access (.rd 0x01#8), .reset, .access (.wr 0x00#8 0x01#8)]) := rfl

/-- A read of KEY after it is loaded. -/
theorem witness_KeyNotReadable :
    (∀ v, Event.access (.wr 0x00#8 v) ∉ ((keyed false v7).withPending [.access (.rd 0x10#8)]).pending) ∧
    ∃ t, Host.Core.run core 1 ((keyed false v7).withPending [.access (.rd 0x10#8)]) = .next t :=
  ⟨fun v h => by simp at h, _, rfl⟩

/-- An erroring command; the other key is all zero. -/
theorem witness_KeySeenThroughMask :
    (∀ off v, Event.access (.wr off v) ∈ (nextCmd 0x00#8 (keyed false v7)).pending →
      ¬ (0x10 ≤ off.toNat ∧ off.toNat ≤ 0x1F)) ∧
    (∀ (k : Nat) (m : State) (c : Byte), k < 1 → Host.Core.run core k (nextCmd 0x00#8 (keyed false v7)) = .next m →
      m.pending.head? = some (.access (.wr 0x00#8 c)) → c = 0x01#8 ∨ c = 0x02#8 →
      m.block.key = (nextCmd 0x00#8 (keyed false v7)).block.key →
        mask (prfOf (keyed false v7).config.prf) (keyed false v7).block.key m.block.idIn =
          mask (prfOf (keyed false v7).config.prf) (Vector.replicate 16 0x00#8) m.block.idIn) ∧
    ∃ t, Host.Core.run core 1 (nextCmd 0x00#8 (keyed false v7)) = .next t := by
  refine ⟨?_, ?_, _, rfl⟩
  · intro off v h
    simp only [nextCmd, withPending_pending, List.mem_singleton, Event.access.injEq, HostOp.wr.injEq] at h
    rw [h.1]
    decide
  · intro k m c hk hr hh hc
    obtain rfl : k = 0 := by omega
    cases hr
    simp only [nextCmd, withPending_pending, List.head?_cons, Option.some.injEq, Event.access.injEq,
      HostOp.wr.injEq] at hh
    rw [← hh.2] at hc
    exact absurd hc (by decide)

/-- The pair of VariantIgnored: equal free bits, different identifiers. -/
theorem witness_MessageBytes :
    free (beBytes 16 v7) = free (beBytes 16 0x018f2d9f9a2a7defcc3f7b1a2c4d5e6f) ∧
    beBytes 16 v7 ≠ beBytes 16 0x018f2d9f9a2a7defcc3f7b1a2c4d5e6f := by decide

theorem witness_RewriteControlBits :
    (beBytes 16 0xffffffffffffffffffffffffffffffff)[6] = 0xFF#8 ∧
    (beBytes 16 0xffffffffffffffffffffffffffffffff)[8] = 0xFF#8 ∧
    (beBytes 16 0)[6] = 0x00#8 ∧ (beBytes 16 0)[8] = 0x00#8 ∧
    (beBytes 16 v7)[6] = 0x7d#8 ∧ (beBytes 16 v7)[8] = 0x8c#8 ∧
    ts (beBytes 16 v7) = ts (beBytes 16 0x018f2d9f9a2a7defcc3f7b1a2c4d5e6f) ∧
    free (beBytes 16 v7) = free (beBytes 16 0x018f2d9f9a2a7defcc3f7b1a2c4d5e6f) := by decide

theorem witness_target_versions : (4#4 = 4#4 ∨ (4#4 : BitVec 4) = 7#4) ∧ ((7#4 : BitVec 4) = 4#4 ∨ 7#4 = 7#4) := by
  decide

theorem witness_HostRoundTrip :
    ((keyed true v4).config.strictVersion = false ∨ ver (beBytes 16 v7) = 7#4) ∧
    (State.reset.config.strictVersion = false ∨ ver (beBytes 16 v4) = 7#4) := by decide

theorem witness_ResetValues : ∃ t, eventStep .reset (keyed false v7) = .next t := ⟨_, rfl⟩

/-- 15 is declared, not 16. -/
theorem witness_KeyMustBeDeclared :
    Event.access (.wr 0x02#8 0x10#8) ∉ [Event.access (.wr 0x02#8 0x0F#8)] ∧
    ∃ t, runEvents [.access (.wr 0x02#8 0x0F#8)] (State.resetWith Config.reference) = .next t :=
  ⟨by simp, _, rfl⟩

/-- A command is started in an implementation with latency, and a tick passes while it is in progress. -/
theorem witness_BusyBehaviour :
    busy (slow (keyed false v7)) = false ∧ 0 < (slow (keyed false v7)).arch.config.latency ∧
    (∃ l, latStep (.bus (.access (.wr 0x00#8 0x01#8))) (slow (keyed false v7)) = .next l ∧
      busy l = true ∧ latReadByte 0x01#8 l = 0x02#8 ∧ ∃ l', latStep .tick l = .next l' ∧ busy l' = true) :=
  ⟨rfl, by decide, _, rfl, rfl, by decide, _, rfl, rfl⟩

theorem witness_LatencyKeepsInv :
    LatInv (slow State.reset) ∧
    ∃ l, latStep (.bus (.access (.wr 0x00#8 0x01#8))) (slow State.reset) = .next l :=
  ⟨⟨(fun _ h => by cases h), .inr rfl, reset_blockInv⟩, _, rfl⟩

theorem witness_CompletesAfterLatency :
    busy (slow (keyed false v7)) = false ∧
    ∃ l, latStep (.bus (.access (.wr 0x00#8 0x01#8))) (slow (keyed false v7)) = .next l := ⟨rfl, _, rfl⟩

/-- A command, a poll, two ticks, and a read of ID_OUT once it has completed. -/
theorem witness_DutifulHostSeesAtomic :
    dutiful [.bus (.access (.wr 0x00#8 0x01#8)), .bus (.access (.rd 0x01#8)), .tick, .tick,
      .bus (.access (.rd 0x30#8))] (slow (keyed false v7)) = true ∧
    ∃ l, latRun [.bus (.access (.wr 0x00#8 0x01#8)), .bus (.access (.rd 0x01#8)), .tick, .tick,
      .bus (.access (.rd 0x30#8))] (slow (keyed false v7)) = .next l := ⟨by decide, _, rfl⟩

end Sys2Proof.Tests
end

section
/-! The register window (20_memory.md): one equation per host access, what each offset of the window reads as and what
a write there stores, and the settled statements about host accesses. -/

namespace Sys2Proof.Machine

/-! ## One equation per host access -/

@[simp] theorem hostStep_rd (off : Byte) (s : State) :
    hostStep (.rd off) s = .next { s with reads := s.reads ++ [readWindow s.config false s.block off] } := rfl

@[simp] theorem hostStep_wide (off : Byte) (n : Nat) (s : State) :
    hostStep (.wide off n) s = .refused (.wideAccess off n) := rfl

/-- A CMD write runs its whole command in its step, on the inputs as they stand (rules R60, R63). -/
theorem hostStep_cmd (c : Byte) (s : State) :
    hostStep (.wr 0x00#8 c) s =
      .next (s.withBlock (finish (commandOutcome s.config (snapshot s.block) c) s.block)) :=
  command_eq c s

theorem hostStep_wr_other {off : Byte} (h : off ≠ 0x00#8) (v : Byte) (s : State) :
    hostStep (.wr off v) s = .next (s.withBlock (storeWindow s.block off v)) :=
  hostWrite_other h v s

/-! ## What stands at an offset (rule R22) -/

theorem regAt_key {off : Byte} (h : 0x10 ≤ off.toNat ∧ off.toNat ≤ 0x1F) :
    regAt off = .key ⟨off.toNat - 0x10, by omega⟩ :=
  (regAt_eq_key off _).2 (by dsimp only; omega)

theorem regAt_idIn {off : Byte} (h : 0x20 ≤ off.toNat ∧ off.toNat ≤ 0x2F) :
    regAt off = .idIn ⟨off.toNat - 0x20, by omega⟩ :=
  (regAt_eq_idIn off _).2 (by dsimp only; omega)

theorem regAt_idOut {off : Byte} (h : 0x30 ≤ off.toNat ∧ off.toNat ≤ 0x3F) :
    regAt off = .idOut ⟨off.toNat - 0x30, by omega⟩ :=
  (regAt_eq_idOut off _).2 (by dsimp only; omega)

/-- The reserved offsets: between CONFIG and KEY, and behind ID_OUT. -/
theorem regAt_reserved {off : Byte} (h : (0x06 ≤ off.toNat ∧ off.toNat ≤ 0x0F) ∨ 0x40 ≤ off.toNat) :
    regAt off = .reserved := by
  simp only [regAt]
  split_ifs
  case neg => rfl
  all_goals omega

/-! ## What an offset reads as (rule R54) -/

section
variable (c : Config) (busy : Bool) (b : BlockState)

@[simp] theorem readWindow_cmd : readWindow c busy b 0x00#8 = 0x00#8 := rfl

theorem readWindow_reserved {off : Byte} (h : (0x06 ≤ off.toNat ∧ off.toNat ≤ 0x0F) ∨ 0x40 ≤ off.toNat) :
    readWindow c busy b off = 0x00#8 := by
  rw [readWindow, regAt_reserved h, readReg]

theorem readWindow_key {off : Byte} (h : 0x10 ≤ off.toNat ∧ off.toNat ≤ 0x1F) :
    readWindow c busy b off = 0x00#8 := by
  rw [readWindow, regAt_key h, readReg]

theorem readWindow_idIn {off : Byte} (h : 0x20 ≤ off.toNat ∧ off.toNat ≤ 0x2F) :
    readWindow c busy b off = b.idIn[off.toNat - 0x20] := by
  rw [readWindow, regAt_idIn h, readReg]
  rfl

theorem readWindow_idOut {off : Byte} (h : 0x30 ≤ off.toNat ∧ off.toNat ≤ 0x3F) :
    readWindow c busy b off = b.idOut[off.toNat - 0x30] := by
  rw [readWindow, regAt_idOut h, readReg]
  rfl

end

/-- STATUS as a read shows it while no command is in progress: bits 3 to 1 are 0. -/
theorem statusByte_idle (err : BitVec 4) (valid : Bool) :
    statusByte err false valid = (err.setWidth 8 <<< 4) ||| (if valid = true then 0x01#8 else 0x00#8) := by
  cases valid <;> simp [statusByte]

/-! ## What a write at an offset stores (rule R55) -/

section
variable (b : BlockState) {off : Byte} (v : Byte)

theorem storeWindow_at_keyLen : storeWindow b 0x02#8 v = { b with keyLen := v } := rfl

theorem storeWindow_at_key (h : 0x10 ≤ off.toNat ∧ off.toNat ≤ 0x1F) :
    storeWindow b off v = { b with key := b.key.set (off.toNat - 0x10) v (by omega) } := by
  rw [storeWindow, regAt_key h, storeReg]

theorem storeWindow_at_idIn (h : 0x20 ≤ off.toNat ∧ off.toNat ≤ 0x2F) :
    storeWindow b off v = { b with idIn := b.idIn.set (off.toNat - 0x20) v (by omega) } := by
  rw [storeWindow, regAt_idIn h, storeReg]

/-- A write elsewhere is ignored. -/
theorem storeWindow_ignored (hl : off.toNat ≠ 0x02) (hk : ¬ (0x10 ≤ off.toNat ∧ off.toNat ≤ 0x1F))
    (hi : ¬ (0x20 ≤ off.toNat ∧ off.toNat ≤ 0x2F)) : storeWindow b off v = b := by
  obtain ⟨i, hr, -⟩ | ⟨hr, -⟩ | ⟨i, hr, -⟩ | ⟨-, -, -, h⟩ := storeWindow_cases b off v
  · have := (regAt_eq_key off i).1 hr
    omega
  · exact absurd (congrArg BitVec.toNat ((regAt_eq_keyLen off).1 hr)) hl
  · have := (regAt_eq_idIn off i).1 hr
    omega
  · exact h

variable (off)

theorem storeWindow_frame : storeWindow b off v =
    { b with key := (storeWindow b off v).key, keyLen := (storeWindow b off v).keyLen,
             idIn := (storeWindow b off v).idIn } := by
  rw [storeWindow]
  cases regAt off <;> rfl

theorem storeWindow_keyLen : (storeWindow b off v).keyLen = if off.toNat = 0x02 then v else b.keyLen := by
  split_ifs with hl
  · obtain rfl : off = 0x02#8 := BitVec.eq_of_toNat_eq hl
    rfl
  · obtain ⟨i, -, h⟩ | ⟨hr, -⟩ | ⟨i, -, h⟩ | ⟨-, -, -, h⟩ := storeWindow_cases b off v
    · rw [h]
    · exact absurd (congrArg BitVec.toNat ((regAt_eq_keyLen off).1 hr)) hl
    · rw [h]
    · rw [h]

theorem getElem_storeWindow_key (i : Nat) (hi : i < 16) :
    (storeWindow b off v).key[i] = if off.toNat = 0x10 + i then v else b.key[i] := by
  split_ifs with ho
  · rw [storeWindow, (regAt_eq_key off ⟨i, hi⟩).2 ho]
    exact Vector.getElem_set_self hi
  · obtain ⟨j, hr, h⟩ | ⟨-, h⟩ | ⟨_, -, h⟩ | ⟨-, -, -, h⟩ := storeWindow_cases b off v
    · have hj := (regAt_eq_key off j).1 hr
      simp only [h]
      exact Vector.getElem_set_ne _ _ (by omega)
    all_goals simp only [h]

theorem getElem_storeWindow_idIn (i : Nat) (hi : i < 16) :
    (storeWindow b off v).idIn[i] = if off.toNat = 0x20 + i then v else b.idIn[i] := by
  split_ifs with ho
  · rw [storeWindow, (regAt_eq_idIn off ⟨i, hi⟩).2 ho]
    exact Vector.getElem_set_self hi
  · obtain ⟨_, -, h⟩ | ⟨-, h⟩ | ⟨j, hr, h⟩ | ⟨-, -, -, h⟩ := storeWindow_cases b off v
    case inr.inr.inl =>
      have hj := (regAt_eq_idIn off j).1 hr
      simp only [h]
      exact Vector.getElem_set_ne _ _ (by omega)
    all_goals simp only [h]

/-- A repeated write stores the same byte again. -/
theorem storeWindow_repeat : storeWindow (storeWindow b off v) off v = storeWindow b off v := by
  unfold storeWindow
  cases regAt off <;> simp [storeReg]

end

/-! ## Wide accesses and the window's addresses (rules R50, R52) -/

theorem ofNat_hostAddress_sub_base (c : Config) (off : Byte) : BitVec.ofNat 8 (hostAddress c off - c.base) = off := by
  rw [hostAddress, Nat.add_sub_cancel_left, BitVec.ofNat_toNat, BitVec.setWidth_eq]

theorem offsetOf_hostAddress (c : Config) (off : Byte) : offsetOf c (hostAddress c off) = some off := by
  have hoff := off.isLt
  have hin : c.base ≤ hostAddress c off ∧ hostAddress c off < c.base + 256 := by
    rw [hostAddress]
    omega
  rw [offsetOf, if_pos hin, ofNat_hostAddress_sub_base]

/-- An access of any width that begins in the window reaches it, one of width 0 too. -/
theorem hostAddress_reaches (c : Config) (off : Byte) (n : Nat) :
    hostAddress c off < c.base + 256 ∧ c.base < hostAddress c off + max n 1 := by
  have hoff := off.isLt
  rw [hostAddress]
  omega

/-! ## Commands -/

/-- Rule R66: what a detected error leaves of the registers. -/
theorem hostStep_cmd_error {c : Byte} {s : State} {e : CmdError}
    (h : commandOutcome s.config (snapshot s.block) c = .error e) :
    hostStep (.wr 0x00#8 c) s = .next { s with block := { s.block with valid := false, err := errCode e } } := by
  rw [hostStep_cmd, h]
  rfl

/-- The block has no fault at all, so no host step ends in one. -/
theorem hostStep_ne_fault (op : HostOp) (s : State) (f : Fault) : hostStep op s ≠ .fault f := nomatch f

theorem snapshot_congr {b b' : BlockState} (hk : b.key = b'.key) (hl : b.keyLen = b'.keyLen) (hi : b.idIn = b'.idIn) :
    snapshot b = snapshot b' := by
  simp only [snapshot, hk, hl, hi]

/-- An outcome determines STATUS, and ID_OUT unless it leaves it as it was: written again over its own ID_OUT it
gives the same registers. -/
theorem finish_repeat (r : Except CmdError (Bytes 16)) {b b' : BlockState} (hk : b'.key = b.key)
    (hl : b'.keyLen = b.keyLen) (hi : b'.idIn = b.idIn) (ho : b'.idOut = (finish r b).idOut) :
    finish r b' = finish r b := by
  cases r with
  | ok out => simp only [finish_ok, completeOk_eq, hk, hl, hi]
  | error e =>
    have ho : b'.idOut = b.idOut := ho
    simp only [finish_error, raiseError_eq, hk, hl, hi, ho]

/-- Only a CMD write touches ID_OUT and STATUS. -/
theorem hostStep_keeps_outputs {op : HostOp} {s t : State} (hop : ∀ c, op ≠ .wr 0x00#8 c)
    (h : hostStep op s = .next t) :
    t.block.idOut = s.block.idOut ∧ t.block.valid = s.block.valid ∧ t.block.err = s.block.err := by
  obtain ⟨off, -, rfl⟩ | ⟨c, hc, -⟩ | ⟨off, v, -, -, rfl⟩ := hostStep_cases h
  · exact ⟨rfl, rfl, rfl⟩
  · exact absurd hc (hop c)
  · simp

/-- A write at an offset other than CMD's: where its byte is stored, what stays, and that it may be repeated. -/
theorem hostStep_wr_other_effect {off : Byte} (h : off ≠ 0x00#8) (v : Byte) (s : State) :
    ∃ t, hostStep (.wr off v) s = .next t ∧
      t = { s with block := { s.block with
              key := t.block.key, keyLen := t.block.keyLen, idIn := t.block.idIn } } ∧
      t.block.keyLen = (if off.toNat = 0x02 then v else s.block.keyLen) ∧
      (∀ (i : Nat) (hi : i < 16), t.block.key[i] = if off.toNat = 0x10 + i then v else s.block.key[i]) ∧
      (∀ (i : Nat) (hi : i < 16), t.block.idIn[i] = if off.toNat = 0x20 + i then v else s.block.idIn[i]) ∧
      hostStep (.wr off v) t = .next t := by
  refine ⟨s.withBlock (storeWindow s.block off v), hostStep_wr_other h v s, ?frame,
    storeWindow_keyLen s.block off v, getElem_storeWindow_key s.block off v,
    getElem_storeWindow_idIn s.block off v, ?again⟩
  case frame => exact congrArg s.withBlock (storeWindow_frame s.block off v)
  case again => rw [hostStep_wr_other h, withBlock_block, storeWindow_repeat, withBlock_withBlock]

/-- A command repeated with its inputs unchanged, and ID_OUT as the first one left it, ends in the same registers. -/
theorem hostStep_cmd_repeat {c : Byte} {s t u : State} (h : hostStep (.wr 0x00#8 c) s = .next t)
    (hc : u.config = t.config) (hk : u.block.key = t.block.key) (hl : u.block.keyLen = t.block.keyLen)
    (hi : u.block.idIn = t.block.idIn) (ho : u.block.idOut = t.block.idOut) :
    hostStep (.wr 0x00#8 c) u = .next { u with block := t.block } := by
  rw [hostStep_cmd] at h
  cases h
  simp only [withBlock_config, withBlock_block, finish_key, finish_keyLen, finish_idIn] at hc hk hl hi ho
  have hr : commandOutcome u.config (snapshot u.block) c = commandOutcome s.config (snapshot s.block) c := by
    rw [hc, snapshot_congr hk hl hi]
  rw [hostStep_cmd, hr, finish_repeat _ hk hl hi ho]
  rfl

end Sys2Proof.Machine

/-! ## The settled statements -/

namespace Sys2Proof.Memory

open Machine

/-- Settles O18: in each range of rule R54's table the read is that of the register which stands there. -/
theorem hostRead : Obligations.HostRead := by
  intro off s
  rw [hostStep_rd]
  congr 4
  split
  · next h => rw [show off = 0x00#8 from BitVec.eq_of_toNat_eq h, readWindow_cmd]
  split
  · next h => rw [show off = 0x01#8 from BitVec.eq_of_toNat_eq h, readWindow_status, statusByte_idle]
  split
  · next h => rw [show off = 0x02#8 from BitVec.eq_of_toNat_eq h, readWindow_keyLen]
  split
  · next h => rw [show off = 0x03#8 from BitVec.eq_of_toNat_eq h, readWindow_blockId]
  split
  · next h => rw [show off = 0x04#8 from BitVec.eq_of_toNat_eq h, readWindow_blockRev]
  split
  · next h => rw [show off = 0x05#8 from BitVec.eq_of_toNat_eq h, readWindow_config]
  split
  · exact readWindow_reserved _ _ _ (by omega)
  split
  · exact readWindow_key _ _ _ (by omega)
  split
  · exact readWindow_idIn _ _ _ (by omega)
  split
  · exact readWindow_idOut _ _ _ (by omega)
  · exact readWindow_reserved _ _ _ (by omega)

/-- Settles O19: in each range of rule R55's table the write is that of the register which stands there. -/
theorem hostWrite : Obligations.HostWrite := by
  intro off v s
  split_ifs with h0 hl hk hi
  · obtain rfl : off = 0x00#8 := BitVec.eq_of_toNat_eq h0
    rfl
  all_goals rw [hostStep_wr_other (fun h => h0 (congrArg BitVec.toNat h))]
  · rw [show off = 0x02#8 from BitVec.eq_of_toNat_eq hl, storeWindow_at_keyLen]
    rfl
  · rw [storeWindow_at_key _ _ hk]
    rfl
  · rw [storeWindow_at_idIn _ _ hi]
    rfl
  · rw [storeWindow_ignored _ _ hl hk hi, withBlock_self]

/-- Settles O20: reads keep the registers, stores are idempotent, and a command's outcome depends only on its inputs. -/
theorem sideEffects : Obligations.SideEffects :=
  ⟨fun off s => ⟨_, hostStep_rd off s, rfl, fun _ => rfl⟩,
    fun _ v s h => hostStep_wr_other_effect h v s,
    fun _ _ => rfl,
    fun _ _ _ _ h => hostStep_cmd_repeat h⟩

/-- Settles O25: a CMD write runs its command on the snapshot of the inputs, and no other access touches ID_OUT or
STATUS. -/
theorem inputSnapshot : Obligations.InputSnapshot :=
  ⟨hostStep_cmd, fun _ _ _ => hostStep_keeps_outputs⟩

/-- Settles O22: the step hands a wide access to `hostStep`, which refuses it, and an access that begins in the window
is of the width asked for, at the offset where it begins. -/
theorem wideRefused : Obligations.WideRefused := by
  refine ⟨?step, ?wide, ?one⟩
  case step =>
    intro s off n rest _ hp
    rw [step_event hp]
    rfl
  case wide =>
    intro c off v n hn
    simp only [memRead, memWrite, if_neg hn, if_pos (hostAddress_reaches c off n), ofNat_hostAddress_sub_base,
      and_self]
  case one =>
    intro c off v
    simp only [memRead, memWrite, if_true, offsetOf_hostAddress, Option.map_some, and_self]

/-- Settles O24: one equation per host access. -/
theorem hostStepOutcomes : Obligations.HostStepOutcomes := by
  refine ⟨hostStep_rd, ?write, fun _ _ _ => hostStep_cmd_error, hostStep_wide, hostStep_ne_fault⟩
  intro off v s
  split_ifs with h0
  · rw [h0, hostStep_cmd]
  · exact hostStep_wr_other h0 v s

end Sys2Proof.Memory
end

section
/-! The encodings (30_encoding.md): which bytes are commands, what the fields of a transaction word hold, and the
settled statements about them. -/

namespace Sys2Proof.Machine

/-! ## Which bytes are commands (rules R81, R82) -/

theorem decodeByte_illegal {c : Byte} (h1 : c ≠ 0x01#8) (h2 : c ≠ 0x02#8) :
    decodeByte c = .error (.illegalCommand c) := by
  have hnone : opcodeTable.find? (fun r => c &&& r.mask == r.pattern) = none := by
    have hmask : c &&& 0xFF#8 = c := BitVec.and_allOnes (x := c)
    simp [opcodeTable, hmask, h1, h2]
  rw [decodeByte, hnone]

/-- An opcode-table word of any width is read through its one byte. -/
theorem decodeTableWord_eq_some {nbits w : Nat} {i : Instr} :
    decodeTableWord nbits w = some i ↔ tableByte nbits w = encodeByte i := by
  rw [← decodeByte_eq_ok, decodeTableWord, decode]
  cases decodeByte (tableByte nbits w) <;> simp

theorem tableByte_eq_encodeByte {n : Nat} (hn : n < 2 ^ 8) (i : Instr) :
    tableByte 8 n = encodeByte i ↔ n = (encodeByte i).toNat := by
  rw [tableByte, Nat.mod_eq_of_lt hn, ← BitVec.toNat_inj, BitVec.toNat_ofNat, Nat.mod_eq_of_lt hn]

/-- Of the 256 bytes all but 0x01 and 0x02 decode to nothing. -/
theorem decodeTableWord_eq_none {n : Nat} (hn : n < 256) : decodeTableWord 8 n = none ↔ n ≠ 1 ∧ n ≠ 2 := by
  simp only [Option.eq_none_iff_forall_ne_some, ne_eq, decodeTableWord_eq_some, tableByte_eq_encodeByte hn]
  constructor
  · exact fun h => ⟨h .encode, h .decode⟩
  · rintro ⟨h1, h2⟩ (_ | _)
    · exact h1
    · exact h2

theorem decodeTableWord_isNone {n : Nat} (hn : n < 256) :
    (decodeTableWord 8 n).isNone = decide (n ≠ 1 ∧ n ≠ 2) := by
  rw [Bool.eq_iff_iff, Option.isNone_iff_eq_none, decide_eq_true_iff, decodeTableWord_eq_none hn]

/-! ## The fields of a transaction word (rule R85) -/

/-- A word is three fields side by side exactly when cutting it where they meet gives the fields. -/
theorem append_append_eq_iff {m n k : Nat} (hi : BitVec m) (mid : BitVec n) (lo : BitVec k) (w : BitVec (m + n + k)) :
    hi ++ mid ++ lo = w ↔
      w.extractLsb' (k + n) m = hi ∧ w.extractLsb' k n = mid ∧ w.extractLsb' 0 k = lo := by
  constructor
  · rintro rfl
    refine ⟨?hi, ?mid, BitVec.extractLsb'_append_eq_right⟩
    case hi =>
      rw [BitVec.extractLsb'_append_eq_of_le (Nat.le_add_right k n), Nat.add_sub_cancel_left]
      exact BitVec.extractLsb'_append_eq_left
    case mid =>
      rw [BitVec.extractLsb'_append_eq_of_le le_rfl, Nat.sub_self]
      exact BitVec.extractLsb'_append_eq_right
  · rintro ⟨rfl, rfl, rfl⟩
    rw [BitVec.extractLsb'_append_extractLsb'_eq_extractLsb' rfl]
    exact BitVec.extractLsb'_append_extractLsb'

/-- W as a one-bit field and as bit 16. -/
theorem extractLsb'_bit16_eq_one {w : BitVec 17} : w.extractLsb' 16 1 = 1#1 ↔ w.getLsbD 16 = true := by
  rw [BitVec.getLsbD_eq_extractLsb', beq_iff_eq]

theorem extractLsb'_bit16_eq_zero {w : BitVec 17} : w.extractLsb' 16 1 = 0#1 ↔ w.getLsbD 16 = false := by
  rw [BitVec.getLsbD_eq_extractLsb', beq_eq_false_iff_ne]
  generalize w.extractLsb' 16 1 = b
  revert b
  decide

theorem txWord_rd_eq_some {off : Byte} {w : BitVec 17} :
    txWord (.rd off) = some w ↔
      w.getLsbD 16 = false ∧ w.extractLsb' 8 8 = off ∧ w.extractLsb' 0 8 = 0x00#8 := by
  rw [txWord, Option.some_inj, ← extractLsb'_bit16_eq_zero]
  exact append_append_eq_iff 0#1 off 0x00#8 w

theorem txWord_wr_eq_some {off v : Byte} {w : BitVec 17} :
    txWord (.wr off v) = some w ↔
      w.getLsbD 16 = true ∧ w.extractLsb' 8 8 = off ∧ w.extractLsb' 0 8 = v := by
  rw [txWord, Option.some_inj, ← extractLsb'_bit16_eq_one]
  exact append_append_eq_iff 1#1 off v w

/-- What a word with W = 1 stands for. -/
theorem ofTxWord_write {w : BitVec 17} (hw : w.getLsbD 16 = true) :
    ofTxWord w = some (.wr (w.extractLsb' 8 8) (w.extractLsb' 0 8)) := if_pos hw

/-- What a word with W = 0 stands for. -/
theorem ofTxWord_read {w : BitVec 17} (hw : w.getLsbD 16 = false) :
    ofTxWord w = if w.extractLsb' 0 8 = 0x00#8 then some (.rd (w.extractLsb' 8 8)) else none :=
  if_neg (by rw [hw]; decide)

/-- An access's word is the one word that stands for it. -/
theorem txWord_eq_some_iff (op : HostOp) (w : BitVec 17) : txWord op = some w ↔ ofTxWord w = some op := by
  cases hw : w.getLsbD 16
  case false =>
    rw [ofTxWord_read hw]
    cases op with
    | rd off =>
      rw [txWord_rd_eq_some, hw]
      simp [and_comm]
    | wr off v =>
      rw [txWord_wr_eq_some, hw]
      simp
    | wide off n => simp [txWord]
  case true =>
    rw [ofTxWord_write hw]
    cases op with
    | rd off =>
      rw [txWord_rd_eq_some, hw]
      simp
    | wr off v =>
      rw [txWord_wr_eq_some, hw]
      simp
    | wide off n => simp [txWord]

theorem extractLsb'_data_eq_zero (w : BitVec 17) : w.extractLsb' 0 8 = 0x00#8 ↔ w.toNat % 2 ^ 8 = 0 := by
  simp [← BitVec.toNat_inj]

theorem ofTxWord_isSome (w : BitVec 17) : (ofTxWord w).isSome = txWordWellFormed w.toNat := by
  have hbit : w.toNat.testBit 16 = w.getLsbD 16 := rfl
  rw [txWordWellFormed, hbit, decide_eq_true w.isLt, Bool.true_and]
  cases hw : w.getLsbD 16
  case false =>
    rw [ofTxWord_read hw, Bool.false_or, Bool.eq_iff_iff, beq_iff_eq, ← extractLsb'_data_eq_zero]
    split_ifs with h <;> simp [h]
  case true =>
    rw [ofTxWord_write hw]
    rfl

end Sys2Proof.Machine

/-! ## The settled statements -/

namespace Sys2Proof.Encoding

open Machine

/-- Settles O5: a word is an access's exactly when it has the access's fields, and it has some access's fields unless
it is a read with DATA. -/
theorem transactionWords : Obligations.TransactionWords :=
  ⟨fun _ => ⟨_, rfl, txWord_rd_eq_some.1 rfl⟩,
    fun _ _ => ⟨_, rfl, txWord_wr_eq_some.1 rfl⟩,
    txWord_eq_some_iff, ofTxWord_isSome, by decide, by decide⟩

/-- Settles O1: the two rows' bytes are their commands' encodings, and every other byte matches neither row. -/
theorem opcodeMap : Obligations.OpcodeMap :=
  ⟨decodeByte_eq_ok.2 rfl, decodeByte_eq_ok.2 rfl, fun _ => decodeByte_illegal, rfl⟩

/-- Settles O4: an illegal byte's outcome is IllegalCommand whatever the inputs are, and 0x01 and 0x02 are the only two
of the 256 bytes that decode. -/
theorem illegalBytes : Obligations.IllegalBytes := by
  refine ⟨fun c s h1 h2 => hostStep_cmd_error (commandOutcome_illegal h1 h2 _ _), ?count⟩
  case count =>
    rw [List.filter_congr fun n hn => decodeTableWord_isNone (List.mem_range.1 hn)]
    decide +kernel

end Sys2Proof.Encoding
end

section
/-! The field functions (40_field_ops.md): an identifier is its timestamp, its free bits and its control bits, each
field function is an equation per field, and the settled statements about them. -/

namespace Sys2Proof.Machine

/-! ## Bytes in two parts -/

theorem eq_iff_extractLsb' {m k : Nat} {x y : BitVec (m + k)} :
    x = y ↔ x.extractLsb' k m = y.extractLsb' k m ∧ x.extractLsb' 0 k = y.extractLsb' 0 k := by
  constructor
  · rintro rfl
    exact ⟨rfl, rfl⟩
  · rintro ⟨hhi, hlo⟩
    rw [← BitVec.extractLsb'_append_extractLsb' (x := x), hhi, hlo, BitVec.extractLsb'_append_extractLsb']

theorem append_inj {m k : Nat} {a a' : BitVec m} {b b' : BitVec k} : a ++ b = a' ++ b' ↔ a = a' ∧ b = b' := by
  simp only [eq_iff_extractLsb', BitVec.extractLsb'_append_eq_left, BitVec.extractLsb'_append_eq_right]

theorem and_two_pow_sub_one {w k : Nat} (hk : k ≤ w) (x : BitVec w) :
    x &&& BitVec.ofNat w (2 ^ k - 1) = (x.extractLsb' 0 k).setWidth w := by
  have hpow : 2 ^ k ≤ 2 ^ w := Nat.pow_le_pow_right (by decide) hk
  have hpos : 0 < 2 ^ k := Nat.two_pow_pos k
  have hmask : (2 ^ k - 1) % 2 ^ w = 2 ^ k - 1 := Nat.mod_eq_of_lt (by omega)
  have hlow : x.toNat % 2 ^ k < 2 ^ w := (Nat.mod_lt _ hpos).trans_le hpow
  apply BitVec.eq_of_toNat_eq
  rw [BitVec.toNat_and, BitVec.toNat_ofNat, hmask, Nat.and_two_pow_sub_one_eq_mod, BitVec.toNat_setWidth,
    BitVec.extractLsb'_toNat, Nat.shiftRight_zero, Nat.mod_eq_of_lt hlow]

theorem and_0F (x : Byte) : x &&& 0x0F#8 = (x.extractLsb' 0 4).setWidth 8 :=
  and_two_pow_sub_one (k := 4) (by decide) x

theorem and_3F (x : Byte) : x &&& 0x3F#8 = (x.extractLsb' 0 6).setWidth 8 :=
  and_two_pow_sub_one (k := 6) (by decide) x

/-- Zero extension loses nothing. -/
theorem setWidth_inj {w k : Nat} (hk : k ≤ w) {a b : BitVec k} : a.setWidth w = b.setWidth w ↔ a = b := by
  refine ⟨fun h => ?_, congrArg _⟩
  have hback := congrArg (BitVec.setWidth k) h
  rwa [BitVec.setWidth_setWidth_of_le _ hk, BitVec.setWidth_setWidth_of_le _ hk, BitVec.setWidth_eq,
    BitVec.setWidth_eq] at hback

/-- The bits that zero extension adds. -/
theorem extractLsb'_setWidth_high {k w : Nat} (x : BitVec k) : (x.setWidth (w + k)).extractLsb' k w = 0#w := by
  ext i hi
  rw [BitVec.getElem_extractLsb', BitVec.getLsbD_setWidth, BitVec.getLsbD_of_ge _ _ (Nat.le_add_right k i),
    Bool.and_false, BitVec.getElem_zero]

/-- A byte rewritten to have version `v`. -/
theorem shiftLeft_or_and_0F (v : BitVec 4) (x : Byte) :
    (v.setWidth 8 <<< 4) ||| (x &&& 0x0F#8) = v ++ x.extractLsb' 0 4 := by
  rw [and_0F, ← BitVec.setWidth_append_eq_shiftLeft_setWidth_or]
  exact BitVec.setWidth_eq _

/-- A byte rewritten to have variant `10`. -/
theorem or_and_3F (x : Byte) : 0x80#8 ||| (x &&& 0x3F#8) = 0b10#2 ++ x.extractLsb' 0 6 := by
  rw [and_3F, show 0x80#8 = (0b10#2).setWidth 8 <<< 6 from rfl, ← BitVec.setWidth_append_eq_shiftLeft_setWidth_or]
  exact BitVec.setWidth_eq _

/-! ## Byte sequences -/

theorem slice_eq_slice {n m lo lo' len : Nat} {u : Bytes n} {v : Bytes m} {h : lo + len ≤ n} {h' : lo' + len ≤ m} :
    slice u lo len h = slice v lo' len h' ↔ ∀ (i : Nat) (hi : i < len), u[lo + i] = v[lo' + i] := by
  simp only [Vector.ext_iff, getElem_slice]

theorem xorBytes_eq_zipWith {n : Nat} (a b : Bytes n) : xorBytes a b = Vector.zipWith (· ^^^ ·) a b := by
  ext1 i hi
  rw [getElem_xorBytes, Vector.getElem_zipWith]

theorem xorBytes_assoc {n : Nat} (a b c : Bytes n) : xorBytes (xorBytes a b) c = xorBytes a (xorBytes b c) := by
  ext1 i hi
  simp only [getElem_xorBytes, BitVec.xor_assoc]

theorem xorBytes_xorBytes_self {n : Nat} (a k : Bytes n) : xorBytes (xorBytes a k) k = a := by
  ext1 i hi
  simp only [getElem_xorBytes, BitVec.xor_assoc, BitVec.xor_self, BitVec.xor_zero]

theorem be_lt (s : List Byte) : be s < 2 ^ (8 * s.length) := by
  induction s with
  | nil => simp [be]
  | cons x s ih =>
    calc be (x :: s) < x.toNat * 2 ^ (8 * s.length) + 2 ^ (8 * s.length) := Nat.add_lt_add_left ih _
      _ = (x.toNat + 1) * 2 ^ (8 * s.length) := (Nat.succ_mul _ _).symm
      _ ≤ 2 ^ 8 * 2 ^ (8 * s.length) := Nat.mul_le_mul_right _ x.isLt
      _ = 2 ^ (8 * (s.length + 1)) := by rw [← pow_add, Nat.mul_succ, Nat.add_comm]

/-- Exclusive-or makes no carry, so it works on digits to any power of two. -/
theorem mul_two_pow_add_xor {n a b : Nat} (x y : Nat) (ha : a < 2 ^ n) (hb : b < 2 ^ n) :
    (x * 2 ^ n + a) ^^^ (y * 2 ^ n + b) = (x ^^^ y) * 2 ^ n + (a ^^^ b) := by
  apply Nat.eq_of_testBit_eq
  intro j
  simp only [Nat.mul_comm _ (2 ^ n), Nat.testBit_xor, Nat.testBit_two_pow_mul_add _ ha,
    Nat.testBit_two_pow_mul_add _ hb, Nat.testBit_two_pow_mul_add _ (Nat.xor_lt_two_pow ha hb)]
  split <;> rfl

theorem be_zipWith_xor : ∀ {s t : List Byte}, s.length = t.length →
    be (List.zipWith (· ^^^ ·) s t) = be s ^^^ be t
  | [], [], _ => rfl
  | x :: s, y :: t, h => by
    have hlen : s.length = t.length := Nat.succ.inj h
    have ht : be t < 2 ^ (8 * s.length) := hlen ▸ be_lt t
    rw [List.zipWith_cons_cons, be, be, be, be_zipWith_xor hlen, List.length_zipWith, ← hlen, Nat.min_self,
      BitVec.toNat_xor, mul_two_pow_add_xor _ _ (be_lt s) ht]

theorem be_xorBytes {n : Nat} (a b : Bytes n) : be (xorBytes a b).toList = be a.toList ^^^ be b.toList := by
  rw [xorBytes_eq_zipWith, Vector.toList_zipWith, be_zipWith_xor (by simp)]

/-! ## The fields of an identifier (rules R101 to R104) -/

theorem ts_eq_iff {a b : Bytes 16} : ts a = ts b ↔ ∀ (i : Nat) (_ : i < 6), a[i] = b[i] := by
  simp only [Vector.ext_iff, getElem_ts]

theorem slice_nine_seven_eq_iff {a b : Bytes 16} : slice a 9 7 = slice b 9 7 ↔
    a[9] = b[9] ∧ a[10] = b[10] ∧ a[11] = b[11] ∧ a[12] = b[12] ∧ a[13] = b[13] ∧ a[14] = b[14] ∧ a[15] = b[15] := by
  rw [slice_eq_slice]
  constructor
  · intro h
    exact ⟨h 0 (by decide), h 1 (by decide), h 2 (by decide), h 3 (by decide), h 4 (by decide), h 5 (by decide),
      h 6 (by decide)⟩
  · rintro ⟨h0, h1, h2, h3, h4, h5, h6⟩ i hi
    interval_cases i <;> assumption

/-- What equal free bits say byte by byte. -/
theorem free_eq_iff {a b : Bytes 16} : free a = free b ↔
    a[6].extractLsb' 0 4 = b[6].extractLsb' 0 4 ∧ a[7] = b[7] ∧
      a[8].extractLsb' 0 6 = b[8].extractLsb' 0 6 ∧ slice a 9 7 = slice b 9 7 := by
  rw [free, free, BitVec.cast_eq, BitVec.cast_eq]
  refine append_inj.trans ?_
  simp only [append_inj, slice_nine_seven_eq_iff, and_assoc]

/-- The fields hold every bit of an identifier (rule R100). -/
theorem identifier_ext {a b : Bytes 16} (hts : ts a = ts b) (hver : ver a = ver b) (hvar : var a = var b)
    (hfree : free a = free b) : a = b := by
  obtain ⟨h6, h7, h8, h9⟩ := free_eq_iff.1 hfree
  ext1 i hi
  obtain hlo | rfl | rfl | rfl | hhi : i < 6 ∨ i = 6 ∨ i = 7 ∨ i = 8 ∨ 9 ≤ i := by omega
  · exact ts_eq_iff.1 hts i hlo
  · exact (eq_iff_extractLsb' (m := 4) (k := 4)).2 ⟨hver, h6⟩
  · exact h7
  · exact (eq_iff_extractLsb' (m := 2) (k := 6)).2 ⟨hvar, h8⟩
  · obtain ⟨j, rfl⟩ := Nat.exists_eq_add_of_le hhi
    exact slice_eq_slice.1 h9 j (by omega)

/-! ## XorTs (rule R107), field by field -/

@[simp] theorem ts_xorTs (u : Bytes 16) (k : Bytes 6) : ts (xorTs u k) = xorBytes (ts u) k := by
  ext1 i hi
  rw [getElem_ts, getElem_xorTs_lo, getElem_xorBytes, getElem_ts]

@[simp] theorem ver_xorTs (u : Bytes 16) (k : Bytes 6) : ver (xorTs u k) = ver u := by
  rw [ver, getElem_xorTs_hi _ _ _ _ (by decide), ver]

@[simp] theorem var_xorTs (u : Bytes 16) (k : Bytes 6) : var (xorTs u k) = var u := by
  rw [var, getElem_xorTs_hi _ _ _ _ (by decide), var]

@[simp] theorem free_xorTs (u : Bytes 16) (k : Bytes 6) : free (xorTs u k) = free u := by
  have hkept (i : Nat) (hi : i < 16) (h6 : 6 ≤ i) : (xorTs u k)[i] = u[i] := getElem_xorTs_hi u k i hi h6
  refine free_eq_iff.2 ⟨?_, hkept 7 _ (by decide), ?_, slice_eq_slice.2 fun i _ => hkept (9 + i) _ (by omega)⟩
  · rw [hkept 6 _ (by decide)]
  · rw [hkept 8 _ (by decide)]

theorem ts48_xorTs (u : Bytes 16) (k : Bytes 6) : ts48 (xorTs u k) = ts48 u ^^^ be k.toList := by
  rw [ts48, ts_xorTs, be_xorBytes, ts48]

theorem xorTs_xorTs (u : Bytes 16) (k k' : Bytes 6) : xorTs (xorTs u k) k' = xorTs u (xorBytes k k') :=
  identifier_ext (by simp only [ts_xorTs, xorBytes_assoc]) (by simp) (by simp) (by simp)

theorem xorTs_xorTs_self (u : Bytes 16) (k : Bytes 6) : xorTs (xorTs u k) k = u :=
  identifier_ext (by simp only [ts_xorTs, xorBytes_xorBytes_self]) (by simp) (by simp) (by simp)

/-! ## SetVV (rule R108), field by field -/

@[simp] theorem ts_setVV (u : Bytes 16) (v : BitVec 4) : ts (setVV u v) = ts u :=
  ts_eq_iff.2 fun i _ => getElem_setVV_other u v i (by omega) (by omega) (by omega)

@[simp] theorem ver_setVV (u : Bytes 16) (v : BitVec 4) : ver (setVV u v) = v := by
  rw [ver, getElem_setVV_six, shiftLeft_or_and_0F]
  exact BitVec.extractLsb'_append_eq_left

@[simp] theorem var_setVV (u : Bytes 16) (v : BitVec 4) : var (setVV u v) = 0b10#2 := by
  rw [var, getElem_setVV_eight, or_and_3F]
  exact BitVec.extractLsb'_append_eq_left

@[simp] theorem free_setVV (u : Bytes 16) (v : BitVec 4) : free (setVV u v) = free u := by
  have hkept (i : Nat) (hi : i < 16) (h6 : i ≠ 6) (h8 : i ≠ 8) : (setVV u v)[i] = u[i] :=
    getElem_setVV_other u v i hi h6 h8
  refine free_eq_iff.2 ⟨?_, hkept 7 _ (by decide) (by decide), ?_,
    slice_eq_slice.2 fun i _ => hkept (9 + i) _ (by omega) (by omega)⟩
  · rw [getElem_setVV_six, shiftLeft_or_and_0F]
    exact BitVec.extractLsb'_append_eq_right
  · rw [getElem_setVV_eight, or_and_3F]
    exact BitVec.extractLsb'_append_eq_right

theorem setVV_congr {u u' : Bytes 16} (v : BitVec 4) (hts : ts u = ts u') (hfree : free u = free u') :
    setVV u v = setVV u' v :=
  identifier_ext (by simpa) (by simp) (by simp) (by simpa)

theorem setVV_setVV (u : Bytes 16) (v w : BitVec 4) : setVV (setVV u v) w = setVV u w :=
  setVV_congr w (ts_setVV u v) (free_setVV u v)

theorem setVV_xorTs (u : Bytes 16) (k : Bytes 6) (v : BitVec 4) : setVV (xorTs u k) v = xorTs (setVV u v) k :=
  identifier_ext (by simp) (by simp) (by simp) (by simp)

theorem setVV_eq_self_iff {u : Bytes 16} {v : BitVec 4} : setVV u v = u ↔ ver u = v ∧ var u = 0b10#2 := by
  constructor
  · intro h
    rw [← h]
    exact ⟨ver_setVV u v, var_setVV u v⟩
  · rintro ⟨hver, hvar⟩
    exact identifier_ext (by simp) (by simp [hver]) (by simp [hvar]) (by simp)

/-! ## FormatMsg (rules R105, R106) -/

theorem getElem_formatMsg_zero (u : Bytes 16) : (formatMsg u)[0] = (u[6].extractLsb' 0 4).setWidth 8 := and_0F u[6]

theorem getElem_formatMsg_one (u : Bytes 16) : (formatMsg u)[1] = u[7] := rfl

theorem getElem_formatMsg_two (u : Bytes 16) : (formatMsg u)[2] = (u[8].extractLsb' 0 6).setWidth 8 := and_3F u[8]

theorem slice_formatMsg (u : Bytes 16) : slice (formatMsg u) 3 7 = slice u 9 7 := by
  refine slice_eq_slice.2 fun i hi => ?_
  rw [getElem_formatMsg, if_neg (by omega), if_neg (by omega), if_neg (by omega)]
  congr 1
  omega

/-- A message is its first three bytes and the seven after them. -/
theorem message_eq_iff {m n : Bytes 10} :
    m = n ↔ m[0] = n[0] ∧ m[1] = n[1] ∧ m[2] = n[2] ∧ slice m 3 7 = slice n 3 7 := by
  constructor
  · rintro rfl
    exact ⟨rfl, rfl, rfl, rfl⟩
  · rintro ⟨h0, h1, h2, h3⟩
    ext1 i hi
    obtain rfl | rfl | rfl | hhi : i = 0 ∨ i = 1 ∨ i = 2 ∨ 3 ≤ i := by omega
    · exact h0
    · exact h1
    · exact h2
    · obtain ⟨j, rfl⟩ := Nat.exists_eq_add_of_le hhi
      exact slice_eq_slice.1 h3 j (by omega)

/-- The message keeps every free bit and nothing else. -/
theorem free_eq_free_iff_formatMsg {a b : Bytes 16} : free a = free b ↔ formatMsg a = formatMsg b := by
  rw [free_eq_iff, message_eq_iff]
  simp only [getElem_formatMsg_zero, getElem_formatMsg_one, getElem_formatMsg_two, slice_formatMsg,
    setWidth_inj (show 4 ≤ 8 by decide), setWidth_inj (show 6 ≤ 8 by decide)]

end Sys2Proof.Machine

/-! ## The settled statements -/

namespace Sys2Proof.Fields

open Machine

/-- Settles O36: a message holds the free bits zero-extended, so it determines them. -/
theorem messageIsFreeBits : Obligations.MessageIsFreeBits := by
  refine ⟨fun a b => free_eq_free_iff_formatMsg, fun u => ⟨?low, ?high⟩⟩
  case low =>
    rw [getElem_formatMsg_zero]
    exact extractLsb'_setWidth_high (w := 4) _
  case high =>
    rw [getElem_formatMsg_two]
    exact extractLsb'_setWidth_high (w := 2) _

/-- Settles O37: exclusive-or has no carry between bytes, so the six lanes are one exclusive-or of numbers. -/
theorem maskTimestamp : Obligations.MaskTimestamp := by
  refine ⟨getElem_xorTs, ts48_xorTs, fun u => ?zeros, fun u i hi => ?ones, fun u => ?self, by decide⟩
  case zeros =>
    ext1 i hi
    rw [getElem_xorTs]
    split
    · rw [Vector.getElem_replicate, BitVec.xor_zero]
    · rfl
  case ones =>
    rw [getElem_xorTs_lo _ _ _ hi, Vector.getElem_replicate]
    exact BitVec.xor_allOnes
  case self => rw [ts48_xorTs, ts48, Nat.xor_self]

/-- Settles O38: SetVV writes the version and the variant and keeps the other fields, which hold all other bits. -/
theorem rewriteControlBits : Obligations.RewriteControlBits := by
  refine ⟨fun u v => ⟨getElem_setVV_six u v, getElem_setVV_eight u v, getElem_setVV_other u v⟩,
    fun u => ⟨getElem_setVV_six u 4#4, getElem_setVV_six u 7#4⟩, fun _ _ v => setVV_congr v,
    fun _ _ => setVV_eq_self_iff, ?ones, ?zeros, ?rule⟩
  all_goals
    intro u h6 h8
    simp only [getElem_setVV_six, getElem_setVV_eight, h6, h8]
    decide

/-- Settles O39: the laws hold field by field. -/
theorem fieldLaws : Obligations.FieldLaws := fun u k k' v w =>
  ⟨⟨xorTs_xorTs_self u k, xorTs_xorTs u k k'⟩, setVV_setVV u v w, setVV_xorTs u k v,
    ⟨free_xorTs u k, free_setVV u v⟩,
    ⟨free_eq_free_iff_formatMsg.1 (free_xorTs u k), free_eq_free_iff_formatMsg.1 (free_setVV u v)⟩,
    ver_setVV u v, var_setVV u v, ts_setVV u v⟩

/-- Settles O35: the message's bytes are the bytes that hold free bits, with the control bits masked out. -/
theorem messageBytes : Obligations.MessageBytes :=
  ⟨fun u => ⟨rfl, (messageIsFreeBits.2 u).1, getElem_formatMsg_zero u, getElem_formatMsg_one u, rfl,
      getElem_formatMsg_two u, slice_formatMsg u⟩,
    fun _ _ => free_eq_free_iff_formatMsg.1, by decide, by decide, by decide⟩

end Sys2Proof.Fields
end

section
/-! KeyedHash and the PRF core (41_keyed_hash.md): the key-length check, the two byte orders and how reversal turns one
into the other, SipHash on the block's 10-byte message, and the settled statements about them. -/

namespace Sys2Proof.Machine

/-! ## The key-length check (rule R130) -/

/-- Both commands are the one transform, with their own wanted and target versions. -/
theorem commandOutcome_encodeByte (i : Instr) :
    ∃ want v, ∀ c inp, commandOutcome c inp (encodeByte i) = codecOutcome c inp want v := by
  cases i
  case encode => exact ⟨7#4, 4#4, commandOutcome_encode⟩
  case decode => exact ⟨4#4, 7#4, commandOutcome_decode⟩

theorem exec_badLength (i : Instr) {s : State} (h : s.block.keyLen ≠ 16#8) :
    exec i s = .next (s.withBlock (raiseError .invalidKeyLength s.block)) := by
  obtain ⟨want, v, hcodec⟩ := commandOutcome_encodeByte i
  rw [exec_eq, hcodec, codecOutcome_badLength _ _ _ _ h, finish_error]

theorem exec_goodLength_err_ne {i : Instr} {s t : State} (hk : s.block.keyLen = 16#8) (h : exec i s = .next t) :
    t.block.err ≠ errCode .invalidKeyLength := by
  obtain ⟨want, v, hcodec⟩ := commandOutcome_encodeByte i
  rw [exec_eq, hcodec] at h
  cases h
  obtain ⟨hbad, -⟩ | ⟨-, -, -, hout⟩ | ⟨-, -, hout⟩ := codecOutcome_cases s.config (snapshot s.block) want v
  · exact absurd hk hbad
  · rw [hout, withBlock_block, finish_error, raiseError_err]
    decide
  · rw [hout, withBlock_block, finish_ok, completeOk_err]
    decide

/-! ## The two byte orders -/

theorem rev_eq_reverse {n : Nat} (s : Bytes n) : rev s = s.reverse := by
  ext1 i hi
  rw [getElem_rev, Vector.getElem_reverse]

theorem le_reverse (s : List Byte) : le s.reverse = be s := by
  induction s with
  | nil => rfl
  | cons x s ih =>
    rw [List.reverse_cons, le_append, ih, List.length_reverse, le, le, be]
    ring

theorem le_rev {n : Nat} (s : Bytes n) : le (rev s).toList = be s.toList := by
  rw [rev_eq_reverse, Vector.toList_reverse, le_reverse]

theorem rev_leBytes (n v : Nat) : rev (leBytes n v) = beBytes n v := by
  ext1 i hi
  rw [getElem_rev, getElem_leBytes, getElem_beBytes]

/-- The last bytes of a big-endian number are the number's low bits. -/
theorem slice_beBytes_last (lo len v : Nat) :
    slice (beBytes (lo + len) v) lo len = beBytes len (v % 2 ^ (8 * len)) := by
  ext1 i hi
  have hlow : 8 * len = 8 * (len - 1 - i) + 8 * (i + 1) := by omega
  have hbyte : 8 * (i + 1) = 8 + 8 * i := by omega
  rw [getElem_slice, getElem_beBytes, getElem_beBytes, show lo + len - 1 - (lo + i) = len - 1 - i by omega, hlow,
    pow_add, Nat.mod_mul_right_div_self]
  apply BitVec.eq_of_toNat_eq
  rw [BitVec.toNat_ofNat, BitVec.toNat_ofNat, hbyte, pow_add, Nat.mod_mul_right_mod]

/-! ## KeyedHash (rules R132 to R136) -/

theorem slice_primitiveKey_first (key : Bytes 16) : slice (primitiveKey key) 0 8 = rev (slice key 0 8) := by
  ext1 i hi
  rw [getElem_slice, primitiveKey, Vector.getElem_append_left (by omega)]
  simp only [Nat.zero_add]

theorem slice_primitiveKey_second (key : Bytes 16) : slice (primitiveKey key) 8 8 = rev (slice key 8 8) := by
  ext1 i hi
  rw [getElem_slice, primitiveKey, Vector.getElem_append_right (by omega) (by omega)]
  simp only [Nat.add_sub_cancel_left]

theorem getElem_primitiveKey_first (key : Bytes 16) (i : Nat) (hi : i < 8) : (primitiveKey key)[i] = key[7 - i] := by
  have hbyte := Vector.ext_iff.1 (slice_primitiveKey_first key) i hi
  simpa only [getElem_slice, getElem_rev, Nat.zero_add] using hbyte

theorem getElem_primitiveKey_second (key : Bytes 16) (i : Nat) (hi : i < 8) :
    (primitiveKey key)[8 + i] = key[15 - i] := by
  have hbyte := Vector.ext_iff.1 (slice_primitiveKey_second key) i hi
  have hpos : 8 + (8 - 1 - i) = 15 - i := by omega
  simpa only [getElem_slice, getElem_rev, hpos] using hbyte

theorem getElem_keyedHash (prf : Prf) (key : Bytes 16) (msg : List Byte) (i : Nat) (hi : i < 8) :
    (keyedHash prf key msg)[i] = (prf (primitiveKey key) msg)[7 - i] :=
  getElem_rev _ i hi

theorem getElem_mask (prf : Prf) (key u : Bytes 16) (i : Nat) (hi : i < 6) :
    (mask prf key u)[i] = (keyedHash prf key (formatMsg u).toList)[2 + i] :=
  getElem_slice _ 2 6 _ i hi

/-- Rule R139: the reversals of key and output turn the primitive's little-endian words into big-endian ones. -/
theorem keyedHash_referencePrf (key : Bytes 16) (msg : List Byte) :
    keyedHash referencePrf key msg =
      beBytes 8 (sipHash24 (BitVec.ofNat 64 (be (slice key 0 8).toList))
        (BitVec.ofNat 64 (be (slice key 8 8).toList)) msg).toNat := by
  rw [keyedHash, referencePrf, rev_leBytes, slice_primitiveKey_first, slice_primitiveKey_second, leWord, leWord,
    le_rev, le_rev]

theorem mask_referencePrf (key u : Bytes 16) :
    mask referencePrf key u =
      beBytes 6 ((sipHash24 (BitVec.ofNat 64 (be (slice key 0 8).toList))
        (BitVec.ofNat 64 (be (slice key 8 8).toList)) (formatMsg u).toList).toNat % 2 ^ 48) := by
  rw [mask, keyedHash_referencePrf]
  exact slice_beBytes_last 2 6 _

/-! ## SipHash on ten bytes (rules R144, R145, R149) -/

section
variable {w tail : List Byte} (hw : w.length = 8) (ht : tail.length < 8)
include hw ht

theorem sipWords_append_tail : sipWords (w ++ tail) = [leWord w] := by
  have hcount : (w ++ tail).length / 8 = 1 := by
    rw [List.length_append]
    omega
  rw [sipWords, hcount]
  simp [← hw]

theorem sipLastWord_append_tail :
    sipLastWord (w ++ tail) = (BitVec.ofNat 64 (8 + tail.length) <<< 56) ||| leWord tail := by
  have hlen : (w ++ tail).length = 8 + tail.length := by rw [List.length_append, hw]
  have hcount : (8 + tail.length) / 8 = 1 := by omega
  have hsmall : (8 + tail.length) % 256 = 8 + tail.length := by omega
  rw [sipLastWord, hlen, hcount, hsmall, Nat.mul_one, List.drop_left' hw]

end

theorem leWord_pair (a b : Byte) : leWord [a, b] = (b.setWidth 64 <<< 8) ||| a.setWidth 64 := by
  have hval : le [a, b] = (b ++ a).toNat := by
    rw [BitVec.toNat_append, Nat.shiftLeft_eq, Nat.mul_comm, ← Nat.two_pow_add_eq_or_of_lt a.isLt]
    simp only [le]
    omega
  rw [leWord, hval, BitVec.ofNat_toNat, BitVec.setWidth_append_eq_shiftLeft_setWidth_or]

/-- A 10-byte message is one word and a tail of two bytes. -/
theorem toList_message (m : Bytes 10) : m.toList = (slice m 0 8).toList ++ [m[8], m[9]] := by
  apply List.ext_getElem
  · simp
  · intro i hi _
    obtain hlo | rfl | rfl : i < 8 ∨ i = 8 ∨ i = 9 := by
      rw [Vector.length_toList] at hi
      omega
    · simp [hlo]
    · simp
    · simp

theorem sipWords_message (m : Bytes 10) : sipWords m.toList = [leWord (slice m 0 8).toList] := by
  rw [toList_message, sipWords_append_tail Vector.length_toList (by simp)]

theorem sipLastWord_message (m : Bytes 10) :
    sipLastWord m.toList = 0x0A00000000000000#64 ||| (m[9].setWidth 64 <<< 8) ||| m[8].setWidth 64 := by
  have htwo : [m[8], m[9]].length = 2 := rfl
  have htop : BitVec.ofNat 64 (8 + 2) <<< 56 = 0x0A00000000000000#64 := by decide
  rw [toList_message, sipLastWord_append_tail Vector.length_toList (by simp), leWord_pair, htwo, htop,
    BitVec.or_assoc]

end Sys2Proof.Machine

/-! ## The settled statements -/

namespace Sys2Proof.KeyedHash

open Machine

/-- Settles O9: the length check comes first, and InvalidKeyLength is its error alone. -/
theorem keyLengthCheck : Obligations.KeyLengthCheck :=
  ⟨fun i _ h => ⟨_, exec_badLength i h, rfl, statusByte_invalidKeyLength⟩, fun _ _ _ => exec_goodLength_err_ne⟩

/-- Settles O41: reversing a sequence exchanges its little-endian and its big-endian reading. -/
theorem keyedHashWordForm : Obligations.KeyedHashWordForm :=
  ⟨le_rev, rev_leBytes 8, keyedHash_referencePrf, mask_referencePrf⟩

/-- Settles O42: a 10-byte message is one whole word and a last word of two bytes under the length; the trace is
computed. -/
theorem sipTenBytes : Obligations.SipTenBytes := by
  refine ⟨fun k0 k1 m => ?words, by decide +kernel, by decide, by decide⟩
  case words => rw [sipHash24, sipWords_message, sipLastWord_message]; rfl

/-- Settles O40: byte positions under the reversals; each example is computed from the one before it. -/
theorem keyedHashBytes : Obligations.KeyedHashBytes := by
  have hkey : primitiveKey (beBytes 16 0x0123456789abcdeffedcba9876543210) =
      beBytes 16 0xefcdab89674523011032547698badcfe := by decide
  have hraw : referencePrf (beBytes 16 0xefcdab89674523011032547698badcfe)
      (beBytes 10 0x0def0c3f7b1a2c4d5e6f).toList = beBytes 8 0xe0e51feaec252cb7 := by decide +kernel
  have hhash : keyedHash referencePrf (beBytes 16 0x0123456789abcdeffedcba9876543210)
      (beBytes 10 0x0def0c3f7b1a2c4d5e6f).toList = beBytes 8 0xb72c25ecea1fe5e0 := by
    rw [keyedHash, hkey, hraw]
    decide
  have hmsg : formatMsg (beBytes 16 0x018f2d9f9a2a7def8c3f7b1a2c4d5e6f) = beBytes 10 0x0def0c3f7b1a2c4d5e6f := by
    decide
  refine ⟨fun key i hi => ⟨getElem_primitiveKey_first key i hi, getElem_primitiveKey_second key i hi⟩,
    getElem_keyedHash, getElem_mask, hkey, hraw, hhash, ?mask⟩
  case mask =>
    rw [mask, hmsg, hhash]
    decide

end Sys2Proof.KeyedHash
end

section
/-! The commands (42_codec_commands.md): the laws of the transform for every PRF, what both commands answer, host
programs that use them, and the settled statements about them. -/

namespace Sys2Proof.Machine

/-! ## Exclusive-or of byte sequences -/

theorem xorBytes_right_inj {n : Nat} {a b c : Bytes n} : xorBytes a b = xorBytes a c ↔ b = c := by
  simp only [Vector.ext_iff, getElem_xorBytes, BitVec.xor_right_inj]

/-- What two sequences have in common cancels. -/
theorem xorBytes_xorBytes_left {n : Nat} (a b c : Bytes n) :
    xorBytes (xorBytes a b) (xorBytes a c) = xorBytes b c := by
  ext1 i hi
  simp only [getElem_xorBytes]
  rw [BitVec.xor_comm a[i], BitVec.xor_assoc, ← BitVec.xor_assoc a[i], BitVec.xor_self, BitVec.zero_xor]

/-! ## The transform, field by field (rules R180 to R182) -/

section
variable (prf : Prf) (u key : Bytes 16) (v : BitVec 4)

@[simp] theorem ts_xcode : ts (xcode prf u key v) = xorBytes (ts u) (mask prf key u) := by
  rw [xcode_eq, ts_setVV, ts_xorTs]

@[simp] theorem free_xcode : free (xcode prf u key v) = free u := by rw [xcode_eq, free_setVV, free_xorTs]

@[simp] theorem ver_xcode : ver (xcode prf u key v) = v := by rw [xcode_eq, ver_setVV]

@[simp] theorem var_xcode : var (xcode prf u key v) = 0b10#2 := by rw [xcode_eq, var_setVV]

theorem getElem_xcode_kept (i : Nat) (hi : i < 16) (h7 : 7 ≤ i) (h8 : i ≠ 8) : (xcode prf u key v)[i] = u[i] := by
  rw [getElem_xcode_hi _ _ _ _ i hi (by omega), getElem_setVV_other _ _ i hi (by omega) h8]

end

theorem mask_congr (prf : Prf) (key : Bytes 16) {u u' : Bytes 16} (h : free u = free u') :
    mask prf key u = mask prf key u' := by
  rw [mask, mask, free_eq_free_iff_formatMsg.1 h]

/-- The transform reads no control bits (rule R178). -/
theorem xcode_congr (prf : Prf) (key : Bytes 16) (v : BitVec 4) {u u' : Bytes 16} (hts : ts u = ts u')
    (hfree : free u = free u') : xcode prf u key v = xcode prf u' key v := by
  rw [xcode_eq, xcode_eq, mask_congr prf key hfree]
  exact setVV_congr v (by rw [ts_xorTs, ts_xorTs, hts]) (by rw [free_xorTs, free_xorTs, hfree])

@[simp] theorem formatMsg_xcode (prf : Prf) (u key : Bytes 16) (v : BitVec 4) :
    formatMsg (xcode prf u key v) = formatMsg u :=
  free_eq_free_iff_formatMsg.1 (free_xcode prf u key v)

/-- Commands change no free bit, so the mask under any key stays (rule R182). -/
@[simp] theorem mask_xcode (prf : Prf) (u key key' : Bytes 16) (v : BitVec 4) :
    mask prf key' (xcode prf u key v) = mask prf key' u :=
  mask_congr prf key' (free_xcode prf u key v)

/-! ## Two transforms one after the other (rules R183 to R186) -/

/-- Two transforms, under two keys: the masks meet in the timestamp, and the last target version stands. -/
theorem xcode_xcode (prf : Prf) (u k1 k2 : Bytes 16) (v w : BitVec 4) :
    xcode prf (xcode prf u k1 v) k2 w = setVV (xorTs u (xorBytes (mask prf k1 u) (mask prf k2 u))) w := by
  rw [xcode_eq, mask_xcode, xcode_eq, ← setVV_xorTs, setVV_setVV, xorTs_xorTs]

/-- Under one key the two masks cancel (rule R183). -/
theorem xcode_xcode_same (prf : Prf) (u key : Bytes 16) (v w : BitVec 4) :
    xcode prf (xcode prf u key v) key w = setVV u w := by
  rw [xcode_xcode, ← xorTs_xorTs, xorTs_xorTs_self]

/-- Two keys give the same output exactly when their masks are equal. -/
theorem xcode_eq_xcode_iff {prf : Prf} {u k1 k2 : Bytes 16} {v : BitVec 4} :
    xcode prf u k1 v = xcode prf u k2 v ↔ mask prf k1 u = mask prf k2 u := by
  constructor
  · intro h
    have hts := congrArg ts h
    rwa [ts_xcode, ts_xcode, xorBytes_right_inj] at hts
  · intro h
    rw [xcode_eq, xcode_eq, h]

/-- A second transform under another key undoes the first exactly when the masks are equal (rule R186). -/
theorem xcode_xcode_eq_setVV_iff {prf : Prf} {u k1 k2 : Bytes 16} {v w : BitVec 4} :
    xcode prf (xcode prf u k1 v) k2 w = setVV u w ↔ mask prf k1 u = mask prf k2 u := by
  rw [← xcode_xcode_same prf u k1 v w, xcode_eq_xcode_iff, mask_xcode, mask_xcode, eq_comm]

/-- There are more keys than masks, so for every identifier two keys share one (rule R186). -/
theorem exists_ne_mask_eq (prf : Prf) (u : Bytes 16) :
    ∃ k1 k2 : Bytes 16, k1 ≠ k2 ∧ mask prf k1 u = mask prf k2 u := by
  have hbyte : 1 < Fintype.card Byte := Fintype.one_lt_card_iff.2 ⟨0x00#8, 0x01#8, by decide⟩
  have hcard : Fintype.card (Fin 6 → Byte) < Fintype.card (Fin 16 → Byte) := by
    rw [Fintype.card_fun, Fintype.card_fun, Fintype.card_fin, Fintype.card_fin]
    exact Nat.pow_lt_pow_right hbyte (by decide)
  obtain ⟨k1, k2, hne, heq⟩ :=
    Fintype.exists_ne_map_eq_of_card_lt (fun k => (mask prf (Vector.ofFn k) u).get) hcard
  refine ⟨Vector.ofFn k1, Vector.ofFn k2, fun h => hne (funext fun i => ?key), ?mask⟩
  case key => simpa using Vector.ext_iff.1 h i i.isLt
  case mask =>
    ext1 i hi
    exact congrFun heq ⟨i, hi⟩

/-! ## The outcome of a command (rules R172, R173) -/

/-- The version a command wants under `strictVersion` (rule R172). -/
def wantedVersion : Instr → BitVec 4
  | .encode => 7#4
  | .decode => 4#4

/-- The version a command's outputs have (rules R170, R171). -/
def targetVersion : Instr → BitVec 4
  | .encode => 4#4
  | .decode => 7#4

/-- Both commands are the one transform between their two versions. -/
theorem exec_eq_codecOutcome (i : Instr) (s : State) :
    exec i s = .next (s.withBlock
      (finish (codecOutcome s.config (snapshot s.block) (wantedVersion i) (targetVersion i)) s.block)) := by
  cases i <;> rfl

theorem exec_badVersion {i : Instr} {s : State} (hk : s.block.keyLen = 16#8) (hs : s.config.strictVersion = true)
    (hv : ver s.block.idIn ≠ wantedVersion i) :
    exec i s = .next (s.withBlock (raiseError .malformedIdentifier s.block)) := by
  rw [exec_eq_codecOutcome, codecOutcome_badVersion s.config (snapshot s.block) _ _ hk hs hv, finish_error]

theorem exec_completes {i : Instr} {s : State} (hk : s.block.keyLen = 16#8)
    (hv : s.config.strictVersion = true → ver s.block.idIn = wantedVersion i) :
    exec i s = .next (s.withBlock
      (completeOk (xcode (prfOf s.config.prf) s.block.idIn s.block.key (targetVersion i)) s.block)) := by
  rw [exec_eq_codecOutcome, codecOutcome_ok s.config (snapshot s.block) _ _ hk hv, finish_ok, snapshot_idIn,
    snapshot_key]

/-- Without `strictVersion` every input is transformed (rules R172, R177). -/
theorem exec_notStrict {s : State} (hs : s.config.strictVersion = false) (hk : s.block.keyLen = 16#8) (i : Instr) :
    exec i s = .next (s.withBlock
      (completeOk (xcode (prfOf s.config.prf) s.block.idIn s.block.key (targetVersion i)) s.block)) :=
  exec_completes hk fun h => absurd (hs.symm.trans h) Bool.false_ne_true

/-- What a success leaves in ID_OUT. -/
theorem exec_idOut_of_valid {i : Instr} {s t : State} (h : exec i s = .next t) (hvalid : t.block.valid = true) :
    t.block.idOut = xcode (prfOf s.config.prf) s.block.idIn s.block.key (targetVersion i) := by
  rw [exec_eq_codecOutcome] at h
  cases h
  rw [withBlock_block] at hvalid ⊢
  obtain ⟨-, hout⟩ | ⟨-, -, -, hout⟩ | ⟨-, -, hout⟩ :=
    codecOutcome_cases s.config (snapshot s.block) (wantedVersion i) (targetVersion i)
  · rw [hout] at hvalid
    exact absurd hvalid Bool.false_ne_true
  · rw [hout] at hvalid
    exact absurd hvalid Bool.false_ne_true
  · rw [hout]
    rfl

/-- The checks read KEY_LEN and the version nibble alone, so these decide STATUS. -/
theorem finish_codecOutcome_status {i i' : CmdInputs} (hk : i.keyLen = i'.keyLen) (hv : ver i.idIn = ver i'.idIn)
    (c : Config) (want v : BitVec 4) (b b' : BlockState) :
    (finish (codecOutcome c i want v) b).valid = (finish (codecOutcome c i' want v) b').valid ∧
    (finish (codecOutcome c i want v) b).err = (finish (codecOutcome c i' want v) b').err := by
  obtain ⟨hbad, hout⟩ | ⟨hlen, hs, hne, hout⟩ | ⟨hlen, hgood, hout⟩ := codecOutcome_cases c i want v
  · rw [hout, codecOutcome_badLength c i' want v (hk ▸ hbad)]
    exact ⟨rfl, rfl⟩
  · rw [hout, codecOutcome_badVersion c i' want v (hk ▸ hlen) hs (hv ▸ hne)]
    exact ⟨rfl, rfl⟩
  · rw [hout, codecOutcome_ok c i' want v (hk ▸ hlen) (hv ▸ hgood)]
    simp only [finish_ok, completeOk_valid, completeOk_err, and_self]

theorem exec_status_congr {i : Instr} {s s' t t' : State} (hc : s.config = s'.config)
    (hk : s.block.keyLen = s'.block.keyLen) (hv : ver s.block.idIn = ver s'.block.idIn)
    (h : exec i s = .next t) (h' : exec i s' = .next t') :
    t.block.valid = t'.block.valid ∧ t.block.err = t'.block.err := by
  rw [exec_eq_codecOutcome] at h h'
  cases h
  cases h'
  rw [hc]
  exact finish_codecOutcome_status (i := snapshot s.block) (i' := snapshot s'.block) hk hv s'.config _ _ _ _

/-- An identifier of the same timestamp, version and free bits has the same outcome (rule R178). -/
theorem codecOutcome_congr {i i' : CmdInputs} (hkey : i.key = i'.key) (hk : i.keyLen = i'.keyLen)
    (hts : ts i.idIn = ts i'.idIn) (hver : ver i.idIn = ver i'.idIn) (hfree : free i.idIn = free i'.idIn)
    (c : Config) (want v : BitVec 4) : codecOutcome c i want v = codecOutcome c i' want v := by
  simp only [codecOutcome, hkey, hk, hver, xcode_congr _ _ _ hts hfree]

/-- ID_IN passes through a command's outcome. -/
theorem finish_with_idIn (r : Except CmdError (Bytes 16)) (b : BlockState) (u : Bytes 16) :
    finish r { b with idIn := u } = { finish r b with idIn := u } := by
  cases r <;> rfl

theorem exec_with_idIn {i : Instr} {s t : State} {u : Bytes 16} (hts : ts u = ts s.block.idIn)
    (hver : ver u = ver s.block.idIn) (hfree : free u = free s.block.idIn) (h : exec i s = .next t) :
    exec i { s with block := { s.block with idIn := u } } = .next { t with block := { t.block with idIn := u } } := by
  rw [exec_eq_codecOutcome] at h
  cases h
  have hout := codecOutcome_congr (i := snapshot { s.block with idIn := u }) (i' := snapshot s.block)
    rfl rfl hts hver hfree s.config (wantedVersion i) (targetVersion i)
  rw [exec_eq_codecOutcome, hout, finish_with_idIn]
  rfl

/-! ## A CMD write (rule R173) -/

theorem finish_codecOutcome (c : Config) (i : CmdInputs) (want v : BitVec 4) (b : BlockState) :
    finish (codecOutcome c i want v) b =
      if i.keyLen ≠ 16#8 then raiseError .invalidKeyLength b
      else if c.strictVersion = true ∧ ver i.idIn ≠ want then raiseError .malformedIdentifier b
      else completeOk (xcode (prfOf c.prf) i.idIn i.key v) b := by
  unfold codecOutcome
  split_ifs <;> rfl

/-- An outcome writes ID_OUT, VALID and ERR alone. -/
theorem finish_frame (r : Except CmdError (Bytes 16)) (b : BlockState) :
    finish r b = { b with idOut := (finish r b).idOut, valid := (finish r b).valid, err := (finish r b).err } := by
  cases r <;> rfl

/-- What an outcome writes does not depend on the registers before it, but for the ID_OUT that an error keeps. -/
theorem finish_outputs_congr (r : Except CmdError (Bytes 16)) (b b' : BlockState) :
    (finish r b).valid = (finish r b').valid ∧ (finish r b).err = (finish r b').err ∧
      ((finish r b).valid = true → (finish r b).idOut = (finish r b').idOut) := by
  cases r with
  | ok out => exact ⟨rfl, rfl, fun _ => rfl⟩
  | error e => exact ⟨rfl, rfl, fun h => absurd h Bool.false_ne_true⟩

theorem hostStep_cmd_outputs_congr {c : Byte} {s s' t t' : State} (hc : s.config = s'.config)
    (hk : s.block.key = s'.block.key) (hl : s.block.keyLen = s'.block.keyLen) (hi : s.block.idIn = s'.block.idIn)
    (h : hostStep (.wr 0x00#8 c) s = .next t) (h' : hostStep (.wr 0x00#8 c) s' = .next t') :
    t.block.valid = t'.block.valid ∧ t.block.err = t'.block.err ∧
      (t.block.valid = true → t.block.idOut = t'.block.idOut) := by
  rw [hostStep_cmd, hc, snapshot_congr hk hl hi] at h
  rw [hostStep_cmd] at h'
  cases h
  cases h'
  exact finish_outputs_congr _ _ _

theorem hostStep_cmd_frame {c : Byte} {s t : State} (h : hostStep (.wr 0x00#8 c) s = .next t) :
    t = { s with block := { s.block with
            idOut := t.block.idOut, valid := t.block.valid, err := t.block.err } } := by
  rw [hostStep_cmd] at h
  cases h
  exact congrArg s.withBlock (finish_frame _ s.block)

/-! ## Host programs: sixteen bytes, one after the other -/

/-- `u` with the bytes of `b` at the indices `is`, stored in that order. -/
def storeBytes (is : List (Fin 16)) (b u : Bytes 16) : Bytes 16 := is.foldl (fun u i => u.set i.val b[i]) u

theorem getElem_storeBytes (is : List (Fin 16)) (b u : Bytes 16) (j : Fin 16) :
    (storeBytes is b u)[j] = if j ∈ is then b[j] else u[j] := by
  induction is generalizing u with
  | nil => rfl
  | cons i is ih =>
    rw [storeBytes, List.foldl_cons, ← storeBytes, ih]
    by_cases hj : j ∈ is
    · simp [hj]
    · by_cases hij : j = i
      · simp [hij]
      · have hval : i.val ≠ j.val := fun h => hij (Fin.ext h.symm)
        simp [hj, hij, Vector.getElem_set_ne _ _ hval]

/-- All sixteen indices leave nothing of the old bytes. -/
theorem storeBytes_finRange (b u : Bytes 16) : storeBytes (List.finRange 16) b u = b := by
  ext1 i hi
  have hbyte := getElem_storeBytes (List.finRange 16) b u ⟨i, hi⟩
  rwa [if_pos (List.mem_finRange _)] at hbyte

theorem toNat_offset {base : Byte} (hbase : base.toNat + 16 ≤ 256) (i : Fin 16) :
    (base + BitVec.ofNat 8 i.val).toNat = base.toNat + i.val := by
  have hi := i.isLt
  rw [BitVec.toNat_add, BitVec.toNat_ofNat]
  omega

theorem regAt_key_offset (i : Fin 16) : regAt (0x10#8 + BitVec.ofNat 8 i.val) = .key i :=
  (regAt_eq_key _ i).2 (toNat_offset (by decide) i)

theorem regAt_idIn_offset (i : Fin 16) : regAt (0x20#8 + BitVec.ofNat 8 i.val) = .idIn i :=
  (regAt_eq_idIn _ i).2 (toNat_offset (by decide) i)

theorem regAt_idOut_offset (i : Fin 16) : regAt (0x30#8 + BitVec.ofNat 8 i.val) = .idOut i :=
  (regAt_eq_idOut _ i).2 (toNat_offset (by decide) i)

/-- A host's write where no CMD stands, as the next access. -/
theorem hostDo_store {off : Byte} {r : Reg} (hr : regAt off = r) (hcmd : r ≠ .cmd) (v : Byte) (s : State) :
    hostDo (.wr off v) s = .next (s.withBlock (storeReg v s.block r)) := by
  have h0 : off ≠ 0x00#8 := fun h => hcmd (hr.symm.trans ((regAt_eq_cmd off).2 h))
  rw [hostDo_wr h0, storeWindow, hr]

/-! ## Host programs: what the lines leave (rules R86, R87) -/

theorem runActs_op {o : HostOp} {s t : State} (h : hostDo o s = .next t) (as : List HostAct) :
    runActs (.op o :: as) s = runActs as t :=
  runActs_cons (a := .op o) h as

theorem runActs_wrLast {off : Byte} {s t : State} (h : hostDo (.wr off (lastRead s)) s = .next t)
    (as : List HostAct) : runActs (.wrLast off :: as) s = runActs as t :=
  runActs_cons (a := .wrLast off) h as

/-- Writes of the bytes at the indices `is` to the registers `reg`, which stand from `base` on. -/
theorem runActs_stores {base : Byte} {reg : Fin 16 → Reg} (hreg : ∀ i, regAt (base + BitVec.ofNat 8 i.val) = reg i)
    (hcmd : ∀ i, reg i ≠ .cmd) (is : List (Fin 16)) (v : Bytes 16) (s : State) :
    runActs (is.map fun i => .op (.wr (base + BitVec.ofNat 8 i.val) v[i])) s =
      .next (s.withBlock (is.foldl (fun b i => storeReg v[i] b (reg i)) s.block)) := by
  induction is generalizing s with
  | nil => rfl
  | cons i is ih =>
    rw [List.map_cons, runActs_op (hostDo_store (hreg i) (hcmd i) _ s), ih]
    rfl

theorem foldl_storeReg_key (is : List (Fin 16)) (k : Bytes 16) (b : BlockState) :
    is.foldl (fun b i => storeReg k[i] b (.key i)) b = { b with key := storeBytes is k b.key } :=
  List.foldl_hom (fun u => { b with key := u }) fun _ _ => rfl

theorem foldl_storeReg_idIn (is : List (Fin 16)) (u : Bytes 16) (b : BlockState) :
    is.foldl (fun b i => storeReg u[i] b (.idIn i)) b = { b with idIn := storeBytes is u b.idIn } :=
  List.foldl_hom (fun w => { b with idIn := w }) fun _ _ => rfl

theorem runActs_storeAll_key (k : Bytes 16) (s : State) :
    runActs (storeAll 0x10#8 k) s = .next (s.withBlock { s.block with key := k }) := by
  rw [storeAll, runActs_stores regAt_key_offset (by simp), foldl_storeReg_key, storeBytes_finRange]

theorem runActs_storeAll_idIn (u : Bytes 16) (s : State) :
    runActs (storeAll 0x20#8 u) s = .next (s.withBlock { s.block with idIn := u }) := by
  rw [storeAll, runActs_stores regAt_idIn_offset (by simp), foldl_storeReg_idIn, storeBytes_finRange]

/-- One byte of `movout`: the byte read from ID_OUT is the one written to ID_IN. -/
theorem runActs_move (i : Fin 16) (as : List HostAct) (s : State) :
    runActs (.op (.rd (0x30#8 + BitVec.ofNat 8 i.val)) :: .wrLast (0x20#8 + BitVec.ofNat 8 i.val) :: as) s =
      runActs as { s with block := { s.block with idIn := s.block.idIn.set i.val s.block.idOut[i] },
                          reads := s.reads ++ [s.block.idOut[i]] } := by
  have hread : hostRead (0x30#8 + BitVec.ofNat 8 i.val) s = { s with reads := s.reads ++ [s.block.idOut[i]] } := by
    rw [hostRead, readWindow, regAt_idOut_offset, readReg]
  have hlast : lastRead { s with reads := s.reads ++ [s.block.idOut[i]] } = s.block.idOut[i] := by
    simp [lastRead]
  rw [runActs_op (hostDo_rd _ s), hread,
    runActs_wrLast (hostDo_store (regAt_idIn_offset i) (by simp) _ _), hlast]
  rfl

theorem runActs_moves (is : List (Fin 16)) (s : State) :
    runActs (is.flatMap fun i => [.op (.rd (0x30#8 + BitVec.ofNat 8 i.val)),
        .wrLast (0x20#8 + BitVec.ofNat 8 i.val)]) s =
      .next { s with block := { s.block with idIn := storeBytes is s.block.idOut s.block.idIn },
                     reads := s.reads ++ is.map fun i => s.block.idOut[i] } := by
  induction is generalizing s with
  | nil => simp [runActs, storeBytes]
  | cons i is ih =>
    rw [List.flatMap_cons, List.cons_append, List.cons_append, List.nil_append, runActs_move, ih]
    simp [storeBytes]

theorem runAsm_cons {line : Asm} {s t : State} (h : runAsm [line] s = .next t) (lines : List Asm) :
    runAsm (line :: lines) s = runAsm lines t := by
  rw [runAsm, List.flatMap_singleton] at h
  rw [runAsm, List.flatMap_cons, runActs_append h, runAsm]

theorem runAsm_setkey (s : State) (k : Bytes 16) :
    runAsm [.setkey k] s = .next { s with block := { s.block with key := k, keyLen := 16#8 } } := by
  rw [runAsm, List.flatMap_singleton, expand, runActs_append (runActs_storeAll_key k s),
    runActs_op (hostDo_wr (by decide) _ _), storeWindow_at_keyLen]
  rfl

theorem runAsm_setid (s : State) (u : Bytes 16) :
    runAsm [.setid u] s = .next { s with block := { s.block with idIn := u } } := by
  rw [runAsm, List.flatMap_singleton, expand]
  exact runActs_storeAll_idIn u s

theorem map_finRange_getElem (u : Bytes 16) : (List.finRange 16).map (fun i => u[i]) = u.toList := by
  apply List.ext_getElem <;> simp

theorem runAsm_movout (s : State) :
    runAsm [.movout] s =
      .next { s with block := { s.block with idIn := s.block.idOut }, reads := s.reads ++ s.block.idOut.toList } := by
  rw [runAsm, List.flatMap_singleton, expand, ← List.map_coe_finRange_eq_range, List.flatMap_map, runActs_moves,
    storeBytes_finRange, map_finRange_getElem]

theorem runAsm_encode (s : State) : runAsm [.encode] s = exec .encode s := by
  rw [exec_eq]
  exact runActs_op (hostDo_cmd 0x01#8 s) []

theorem runAsm_decode (s : State) : runAsm [.decode] s = exec .decode s := by
  rw [exec_eq]
  exact runActs_op (hostDo_cmd 0x02#8 s) []

end Sys2Proof.Machine

/-! ## The settled statements -/

namespace Sys2Proof.Commands

open Machine

/-- Settles O8: the three kinds of byte have the three outcomes of the pseudocode, an outcome depends on the inputs
alone, and writing it back touches ID_OUT, VALID and ERR alone. -/
theorem commandPseudocode : Obligations.CommandPseudocode := by
  refine ⟨fun c s => ?pseudocode, fun _ _ _ _ _ => hostStep_cmd_outputs_congr, fun _ _ _ => hostStep_cmd_frame⟩
  rw [hostStep_cmd]
  obtain ⟨rfl, hout⟩ | ⟨rfl, hout⟩ | ⟨h1, h2, hout⟩ := commandOutcome_cases s.config (snapshot s.block) c
  · rw [hout, finish_codecOutcome]
    rfl
  · rw [hout, finish_codecOutcome]
    rfl
  · rw [hout, finish_error, if_neg (not_or.2 ⟨h1, h2⟩)]

/-- Settles O10: under `strictVersion` the version nibble is compared with the wanted one, otherwise nothing is, and
the checks read KEY_LEN and that nibble alone. -/
theorem strictVersionCheck : Obligations.StrictVersionCheck := by
  refine ⟨fun s hs hk => ⟨exec_badVersion (i := .encode) hk hs, fun hv => ?encode,
      exec_badVersion (i := .decode) hk hs, fun hv => ?decode⟩,
    fun s hs hk => ⟨exec_notStrict hs hk .encode, exec_notStrict hs hk .decode⟩,
    fun _ _ _ _ _ => exec_status_congr⟩
  case encode => exact ⟨_, exec_completes hk fun _ => hv, rfl⟩
  case decode => exact ⟨_, exec_completes hk fun _ => hv, rfl⟩

/-- Settles O12: neither the checks nor the transform read the variant, and SetVV writes it. -/
theorem variantIgnored : Obligations.VariantIgnored := by
  refine ⟨fun i s t t' u' hts hver hfree h h' => ?ignored, fun i s t h hvalid => ?output⟩
  case ignored =>
    rw [exec_with_idIn hts hver hfree h] at h'
    cases h'
    rfl
  case output => rw [exec_idOut_of_valid h hvalid, var_xcode]

/-- Settles O13: without the check every input is transformed, and SetVV changes an identifier of another version. -/
theorem nonStrictTotal : Obligations.NonStrictTotal := by
  have hne {u : Bytes 16} {v : BitVec 4} (h : ver u ≠ v) : setVV u v ≠ u := fun he => h (setVV_eq_self_iff.1 he).1
  exact ⟨fun s hs hk => ⟨fun _ => exec_notStrict hs hk .encode, fun _ => exec_notStrict hs hk .decode⟩,
    fun prf u key h => ⟨xcode_xcode_same prf u key 4#4 7#4, hne h⟩,
    fun prf u key h => ⟨xcode_xcode_same prf u key 7#4 4#4, hne h⟩⟩

/-- Settles O44: masking keeps all but the timestamp, and SetVV all but the control bits, which it writes. -/
theorem outputFields : Obligations.OutputFields := fun prf u key v _ =>
  ⟨free_xcode prf u key v, getElem_xcode_kept prf u key v 7 (by decide) (by decide) (by decide),
    fun i hi h9 => getElem_xcode_kept prf u key v i hi (by omega) (by omega), ver_xcode prf u key v,
    var_xcode prf u key v⟩

/-- Settles O45: the message holds the free bits alone, and the transform keeps them. -/
theorem maskInvariance : Obligations.MaskInvariance := fun prf u key w _ =>
  ⟨formatMsg_xcode prf u key w, mask_xcode prf u key key w⟩

/-- Settles O46: the two masks are equal and cancel, so only the control bits can differ. -/
theorem roundTrip : Obligations.RoundTrip := by
  refine ⟨fun prf u key v w _ _ => xcode_xcode_same prf u key v w, fun prf u key => ?exact, fun prf u key => ?twice⟩
  case exact =>
    rw [xcode_xcode_same, xcode_xcode_same]
    exact ⟨setVV_eq_self_iff, setVV_eq_self_iff⟩
  case twice =>
    rw [xcode_xcode_same]
    exact ⟨ts_setVV u 4#4, ver_setVV u 4#4⟩

/-- Settles O47: the key enters through the mask alone, and there are more keys than masks. -/
theorem keyDependence : Obligations.KeyDependence := by
  refine ⟨fun prf u k1 k2 =>
    ⟨fun i hi h6 => ?high, ?low, xcode_xcode prf u k1 k2 4#4 7#4, xcode_xcode_eq_setVV_iff⟩, exists_ne_mask_eq⟩
  case high => rw [getElem_xcode_hi _ _ _ _ i hi h6, getElem_xcode_hi _ _ _ _ i hi h6]
  case low => rw [ts_xcode, ts_xcode, xorBytes_xorBytes_left]

/-- Settles O50: ENCODE succeeds on `x` and DECODE on its output, whose version is 4, and the masks of the two
commands cancel. -/
theorem hostRoundTrip : Obligations.HostRoundTrip := by
  intro s k x hx
  have hver : s.config.strictVersion = true → ver x = 7#4 := fun hs =>
    hx.resolve_left fun h => Bool.false_ne_true (h.symm.trans hs)
  rw [runAsm_cons (runAsm_setkey s k), runAsm_cons (runAsm_setid _ x),
    runAsm_cons ((runAsm_encode _).trans (exec_completes (i := .encode) rfl hver)), runAsm_cons (runAsm_movout _),
    runAsm_decode]
  exact ⟨_, exec_completes rfl fun _ => ver_xcode (prfOf s.config.prf) x k 4#4, xcode_xcode_same _ x k 4#4 7#4,
    statusByte_success⟩

end Sys2Proof.Commands
end

section
/-! Outcomes and errors (60_exceptions.md): which outcome a CMD write ends in, what it writes and what it leaves, and
the settled statements about exceptions. -/

namespace Sys2Proof.Machine

/-! ## When an outcome is an error (rules R130, R172, R205) -/

theorem commandOutcome_badLength {byte : Byte} (hb : byte = 0x01#8 ∨ byte = 0x02#8) {i : CmdInputs}
    (hk : i.keyLen ≠ 16#8) (c : Config) : commandOutcome c i byte = .error .invalidKeyLength := by
  obtain rfl | rfl := hb
  · rw [commandOutcome_encode, codecOutcome_badLength c i _ _ hk]
  · rw [commandOutcome_decode, codecOutcome_badLength c i _ _ hk]

/-- Of the configuration only `strictVersion` decides which error there is: the checks come before the hashing. -/
theorem codecOutcome_error_of_strictVersion_eq {c c' : Config} (hs : c'.strictVersion = c.strictVersion)
    {i : CmdInputs} {want v : BitVec 4} {e : CmdError} (h : codecOutcome c i want v = .error e) :
    codecOutcome c' i want v = .error e := by
  obtain ⟨hk, hout⟩ | ⟨hk, hstrict, hv, hout⟩ | ⟨-, -, hout⟩ := codecOutcome_cases c i want v
  · rw [codecOutcome_badLength c' i want v hk, ← hout, h]
  · rw [codecOutcome_badVersion c' i want v hk (hs.trans hstrict) hv, ← hout, h]
  · cases hout.symm.trans h

theorem commandOutcome_error_of_strictVersion_eq {c c' : Config} (hs : c'.strictVersion = c.strictVersion)
    {i : CmdInputs} {byte : Byte} {e : CmdError} (h : commandOutcome c i byte = .error e) :
    commandOutcome c' i byte = .error e := by
  obtain ⟨rfl, hout⟩ | ⟨rfl, hout⟩ | ⟨h1, h2, hout⟩ := commandOutcome_cases c i byte
  · exact codecOutcome_error_of_strictVersion_eq hs (hout.symm.trans h)
  · exact codecOutcome_error_of_strictVersion_eq hs (hout.symm.trans h)
  · rw [commandOutcome_illegal h1 h2, ← hout, h]

/-! ## What an outcome leaves (rules R204, R205, R207) -/

@[simp] theorem busy_latFinish (f : InFlight) (l : LatState) : busy (latFinish f l) = false := rfl

theorem errCode_ne_zero (e : CmdError) : errCode e ≠ 0x0#4 := by
  cases e <;> decide

/-- Success and error are told apart by STATUS, and an error keeps ID_OUT. -/
theorem finish_success_or_error (r : Except CmdError (Bytes 16)) (b : BlockState) :
    (finish r b).valid = true ∧ (finish r b).err = 0x0#4 ∨
      (finish r b).valid = false ∧ (finish r b).err ≠ 0x0#4 ∧ (finish r b).idOut = b.idOut := by
  cases r with
  | ok out => exact .inl ⟨rfl, rfl⟩
  | error e => exact .inr ⟨rfl, errCode_ne_zero e, rfl⟩

theorem hostStep_cmd_err {c : Byte} {s t : State} (h : hostStep (.wr 0x00#8 c) s = .next t) {e : CmdError}
    (hout : commandOutcome s.config (snapshot s.block) c = .error e) : t.block.err = errCode e := by
  rw [hostStep_cmd_error hout] at h
  cases h
  rfl

/-- The one step of a CMD write takes the access and writes the outcome of its byte. -/
theorem step_cmd {c : Byte} {s : State} {rest : List Event} (h : s.pending = .access (.wr 0x00#8 c) :: rest) :
    step s = .next ((s.withPending rest).withBlock
      (finish (commandOutcome s.config (snapshot s.block) c) s.block)) :=
  (step_event h).trans (hostStep_cmd c (s.withPending rest))

end Sys2Proof.Machine

/-! ## The settled statements -/

namespace Sys2Proof.Exceptions

open Machine

/-- Settles O14: the writes of CompleteOk and the STATUS byte they make. -/
theorem successOutcome : Obligations.SuccessOutcome := by
  refine ⟨fun c out b => ⟨completeOk_eq out b, ?status⟩, busy_latFinish⟩
  rw [readWindow_status, completeOk_err, completeOk_valid, statusByte_success]

/-- Settles O15: the writes of the error outcome, its three STATUS bytes, and that another PRF leaves `strictVersion`,
on which alone of the configuration an error depends. -/
theorem errorOutcome : Obligations.ErrorOutcome := by
  refine ⟨raiseError_eq, busy_latFinish, fun c b => ?status,
    fun c p _ _ _ => commandOutcome_error_of_strictVersion_eq (c := c) (c' := { c with prf := p }) rfl⟩
  simp only [readWindow_status, raiseError_err, raiseError_valid, errCode_invalidKeyLength,
    errCode_malformedIdentifier, errCode_illegalCommand, statusByte_invalidKeyLength,
    statusByte_malformedIdentifier, statusByte_illegalCommand, and_self]

/-- Settles O16: the byte decides before KEY_LEN, and KEY_LEN before the version. -/
theorem errorPriority : Obligations.ErrorPriority := by
  intro c s t h
  refine ⟨fun h1 h2 => ?illegal, fun hc hk => ?length, fun hc hk hs hv => ?encode, fun hc hk hs hv => ?decode⟩
  case illegal => exact hostStep_cmd_err h (commandOutcome_illegal h1 h2 _ _)
  case length => exact hostStep_cmd_err h (commandOutcome_badLength hc hk _)
  case encode =>
    subst hc
    exact hostStep_cmd_err h ((commandOutcome_encode _ _).trans (codecOutcome_badVersion _ _ _ _ hk hs hv))
  case decode =>
    subst hc
    exact hostStep_cmd_err h ((commandOutcome_decode _ _).trans (codecOutcome_badVersion _ _ _ _ hk hs hv))

/-- Settles O17: the step writes back the command's outcome, which keeps the inputs and, if it is an error, ID_OUT. -/
theorem precision : Obligations.Precision := fun _ s _ hp =>
  ⟨_, step_cmd hp, rfl, rfl, rfl, finish_key _ s.block, finish_keyLen _ s.block, finish_idIn _ s.block,
    finish_success_or_error _ s.block⟩

end Sys2Proof.Exceptions
end

section
/-! Reset (70_reset_and_hazards.md): what every event of a run keeps holds at its end, KEY_LEN is 16 only by a write of
16, and the settled statement about reset. -/

namespace Sys2Proof.Machine

/-- A property that each event of a run keeps holds at the end of the run. -/
theorem runEvents_induction {P : State → Prop} {es : List Event}
    (hkeep : ∀ e ∈ es, ∀ {s t : State}, eventStep e s = .next t → P s → P t) {s t : State}
    (h : runEvents es s = .next t) (hs : P s) : P t := by
  induction es generalizing s with
  | nil => cases h; exact hs
  | cons e es ih =>
    obtain ⟨hhead, htail⟩ := List.forall_mem_cons.1 hkeep
    rw [runEvents] at h
    cases he : eventStep e s with
    | next u => rw [he] at h; exact ih htail h (hhead he hs)
    | fault f => exact nomatch f
    | refused r => rw [he] at h; cases h

theorem reset_keyLen_ne_sixteen : BlockState.reset.keyLen ≠ 16#8 := by decide

/-- Only a write of 16 to KEY_LEN makes KEY_LEN 16 (rules R24, R232). -/
theorem eventStep_keyLen_ne_sixteen {e : Event} (hne : e ≠ .access (.wr 0x02#8 0x10#8)) {s t : State}
    (h : eventStep e s = .next t) (hs : s.block.keyLen ≠ 16#8) : t.block.keyLen ≠ 16#8 := by
  obtain ⟨-, rfl⟩ | ⟨off, -, rfl⟩ | ⟨c, -, rfl⟩ | ⟨off, v, rfl, -, rfl⟩ := eventStep_cases h
  case inl => exact reset_keyLen_ne_sixteen
  case inr.inl => exact hs
  case inr.inr.inl => rwa [withBlock_block, finish_keyLen]
  case inr.inr.inr =>
    rw [withBlock_block, storeWindow_keyLen]
    split_ifs with hl
    · obtain rfl : off = 0x02#8 := BitVec.eq_of_toNat_eq hl
      rintro rfl
      exact hne rfl
    · exact hs

end Sys2Proof.Machine

/-! ## The settled statement -/

namespace Sys2Proof.Reset

open Machine

/-- Settles O52: reset leaves KEY_LEN other than 16, no event of the run makes it 16, and so each command ends in the
error of the length check. -/
theorem keyMustBeDeclared : Obligations.KeyMustBeDeclared := by
  intro c es t hes hrun i
  have hkeyLen : t.block.keyLen ≠ 16#8 :=
    runEvents_induction (P := fun s => s.block.keyLen ≠ 16#8)
      (fun e he _ _ => eventStep_keyLen_ne_sixteen (ne_of_mem_of_not_mem he hes)) hrun
      reset_keyLen_ne_sixteen
  exact ⟨_, exec_badLength i hkeyLen, rfl, statusByte_invalidKeyLength⟩

end Sys2Proof.Reset
end

section
/-! The registers (10_state.md): what alone changes each of them, the invariant that every step keeps, and the settled
statements about single steps. -/

namespace Sys2Proof.Machine

/-! ## What a command writes (rules R200 to R205) -/

/-- Of all command bytes only ENCODE's and DECODE's succeed, and their outputs carry the control bits. -/
theorem commandOutcome_eq_ok {c : Config} {i : CmdInputs} {byte : Byte} {out : Bytes 16}
    (h : commandOutcome c i byte = .ok out) : (byte = 0x01#8 ∨ byte = 0x02#8) ∧ Tagged out := by
  have htagged {want v : BitVec 4} (hv : v = 4#4 ∨ v = 7#4) (hout : codecOutcome c i want v = .ok out) :
      Tagged out := by
    obtain ⟨-, h'⟩ | ⟨-, -, -, h'⟩ | ⟨-, -, h'⟩ := codecOutcome_cases c i want v
    · cases h'.symm.trans hout
    · cases h'.symm.trans hout
    · cases h'.symm.trans hout
      rw [Tagged, ver_xcode, var_xcode]
      exact ⟨hv, rfl⟩
  obtain ⟨rfl, hout⟩ | ⟨rfl, hout⟩ | ⟨-, -, hout⟩ := commandOutcome_cases c i byte
  · exact ⟨.inl rfl, htagged (.inl rfl) (hout.symm.trans h)⟩
  · exact ⟨.inr rfl, htagged (.inr rfl) (hout.symm.trans h)⟩
  · cases hout.symm.trans h

/-- A command changes ID_OUT only if it is ENCODE or DECODE and succeeds. -/
theorem finish_commandOutcome_idOut (c : Config) (i : CmdInputs) (byte : Byte) (b : BlockState) :
    (finish (commandOutcome c i byte) b).idOut = b.idOut ∨
      (byte = 0x01#8 ∨ byte = 0x02#8) ∧ (finish (commandOutcome c i byte) b).valid = true := by
  cases hout : commandOutcome c i byte with
  | error e => exact .inl rfl
  | ok out => exact .inr ⟨(commandOutcome_eq_ok hout).1, rfl⟩

/-! ## The invariant of the registers -/

theorem blockInv_reset : BlockInv BlockState.reset where
  errCode := by decide
  validOk h := absurd h Bool.false_ne_true
  idOutForm := .inr rfl
  freshStatus _ _ := rfl

/-- The invariant speaks of ID_OUT and STATUS alone. -/
theorem BlockInv.congr {b b' : BlockState} (hinv : BlockInv b) (ho : b'.idOut = b.idOut) (hv : b'.valid = b.valid)
    (he : b'.err = b.err) : BlockInv b' where
  errCode := he ▸ hinv.errCode
  validOk := by rw [ho, hv, he]; exact hinv.validOk
  idOutForm := by rw [ho]; exact hinv.idOutForm
  freshStatus := by rw [ho, hv, he]; exact hinv.freshStatus

theorem BlockInv.storeWindow {b : BlockState} (hinv : BlockInv b) (off v : Byte) :
    BlockInv (storeWindow b off v) :=
  hinv.congr (storeWindow_idOut b off v) (storeWindow_valid b off v) (storeWindow_err b off v)

/-- A command leads to the invariant from every ID_OUT that is an output or the reset value: an error, the one outcome
that keeps it, sets ERR to a code other than 0. -/
theorem blockInv_finish_commandOutcome {b : BlockState} (hform : Tagged b.idOut ∨ b.idOut = BlockState.reset.idOut)
    (c : Config) (i : CmdInputs) (byte : Byte) : BlockInv (finish (commandOutcome c i byte) b) := by
  cases hout : commandOutcome c i byte with
  | ok out =>
    have htagged := (commandOutcome_eq_ok hout).2
    exact { errCode := by rw [finish_ok, completeOk_err]; decide
            validOk := fun _ => ⟨rfl, htagged⟩
            idOutForm := .inl htagged
            freshStatus := fun h => absurd h.symm Bool.false_ne_true }
  | error e =>
    exact { errCode := by rw [finish_error, raiseError_err]; cases e <;> decide
            validOk := fun h => absurd h Bool.false_ne_true
            idOutForm := hform
            freshStatus := fun _ h => absurd h (errCode_ne_zero e) }

theorem eventStep_keeps_blockInv {e : Event} {s t : State} (h : eventStep e s = .next t) (hinv : BlockInv s.block) :
    BlockInv t.block := by
  obtain ⟨-, rfl⟩ | ⟨off, -, rfl⟩ | ⟨c, -, rfl⟩ | ⟨off, v, -, -, rfl⟩ := eventStep_cases h
  case inl => exact blockInv_reset
  case inr.inl => exact hinv
  case inr.inr.inl => exact blockInv_finish_commandOutcome hinv.idOutForm _ _ _
  case inr.inr.inr => exact hinv.storeWindow off v

@[simp] theorem statusByte_fresh : statusByte 0x0#4 false false = 0x00#8 := by decide

/-- ERR is one of its four codes (rule R33). -/
theorem BlockInv.err_cases {b : BlockState} (hinv : BlockInv b) :
    b.err = 0x0#4 ∨ b.err = 0x1#4 ∨ b.err = 0x2#4 ∨ b.err = 0x3#4 := by
  have herr := hinv.errCode
  simp only [← BitVec.toNat_inj, BitVec.toNat_ofNat]
  omega

/-! ## What alone changes each register -/

theorem storeWindow_key_eq_or (b : BlockState) (off v : Byte) :
    (storeWindow b off v).key = b.key ∨ 0x10 ≤ off.toNat ∧ off.toNat ≤ 0x1F := by
  obtain ⟨i, hr, -⟩ | ⟨-, h⟩ | ⟨_, -, h⟩ | ⟨-, -, -, h⟩ := storeWindow_cases b off v
  · have hi := (regAt_eq_key off i).1 hr
    exact .inr (by omega)
  all_goals exact .inl (by rw [h])

theorem storeWindow_idIn_eq_or (b : BlockState) (off v : Byte) :
    (storeWindow b off v).idIn = b.idIn ∨ 0x20 ≤ off.toNat ∧ off.toNat ≤ 0x2F := by
  obtain ⟨_, -, h⟩ | ⟨-, h⟩ | ⟨i, hr, -⟩ | ⟨-, -, -, h⟩ := storeWindow_cases b off v
  case inr.inr.inl =>
    have hi := (regAt_eq_idIn off i).1 hr
    exact .inr (by omega)
  all_goals exact .inl (by rw [h])

theorem storeWindow_keyLen_eq_or (b : BlockState) (off v : Byte) :
    (storeWindow b off v).keyLen = b.keyLen ∨ off = 0x02#8 := by
  rw [storeWindow_keyLen]
  split_ifs with hl
  · exact .inr (BitVec.eq_of_toNat_eq hl)
  · exact .inl rfl

end Sys2Proof.Machine

/-! ## The settled statements -/

namespace Sys2Proof.Registers

open Machine

/-- Settles O28: a step waits or takes an event, and reset, reads, commands and stores each keep the invariant. -/
theorem stepKeepsInv : Obligations.StepKeepsInv := by
  intro s t hinv h
  obtain ⟨-, rfl⟩ | ⟨e, rest, -, he⟩ := step_cases h
  · exact hinv
  · exact eventStep_keeps_blockInv he hinv

/-- Settles O29: reset leaves every configuration the same registers. -/
theorem resetInv : Obligations.ResetInv := ⟨blockInv_reset, fun _ => blockInv_reset⟩

/-- Settles O30: VALID = 1 leaves ERR = 0 alone, and VALID = 0 the four codes. -/
theorem statusValues : Obligations.StatusValues := by
  intro s (hinv : BlockInv s.block)
  rw [readWindow_status]
  cases hv : s.block.valid with
  | true => simp [(hinv.validOk hv).1]
  | false => obtain he | he | he | he := hinv.err_cases <;> simp [he]

/-- Settles O27: the event of the step is the one named for each register that it changes. -/
theorem onlyTheseChange : Obligations.OnlyTheseChange := by
  intro s t h
  obtain ⟨-, rfl⟩ | ⟨e, rest, hp, he⟩ := step_cases h
  · exact ⟨.inl rfl, .inl rfl, .inl rfl, .inl rfl, .inl ⟨rfl, rfl⟩, rfl⟩
  rw [hp, List.head?_cons]
  obtain ⟨rfl, rfl⟩ | ⟨off, rfl, rfl⟩ | ⟨c, rfl, rfl⟩ | ⟨off, v, rfl, -, rfl⟩ := eventStep_cases he
  case inl => exact ⟨.inr (.inl rfl), .inr (.inl rfl), .inr (.inl rfl), .inr (.inl rfl), .inr (.inl rfl), rfl⟩
  case inr.inl => exact ⟨.inl rfl, .inl rfl, .inl rfl, .inl rfl, .inl ⟨rfl, rfl⟩, rfl⟩
  case inr.inr.inl =>
    refine ⟨.inl (finish_key _ _), .inl (finish_keyLen _ _), .inl (finish_idIn _ _), ?idOut,
      .inr (.inr ⟨c, rfl⟩), rfl⟩
    obtain ho | ⟨hc, hvalid⟩ := finish_commandOutcome_idOut s.config (snapshot s.block) c s.block
    · exact .inl ho
    · exact .inr (.inr ⟨c, rfl, hc, hvalid⟩)
  case inr.inr.inr =>
    refine ⟨(storeWindow_key_eq_or s.block off v).imp id fun hk => .inr ⟨off, v, rfl, hk⟩,
      (storeWindow_keyLen_eq_or s.block off v).imp id fun hl => .inr ⟨v, by rw [hl]⟩,
      (storeWindow_idIn_eq_or s.block off v).imp id fun hi => .inr ⟨off, v, rfl, hi⟩,
      .inl (storeWindow_idOut _ _ _), .inl ⟨storeWindow_valid _ _ _, storeWindow_err _ _ _⟩, rfl⟩

end Sys2Proof.Registers
end

section
/-! Single accesses and commands: the encoding of commands (30_encoding.md section 1), reads after writes and the
addresses of the window (20_memory.md), the results of both commands and what they leave (42_codec_commands.md), and
the settled statements about them. -/

namespace Sys2Proof.Machine

/-! ## What a read depends on (rule R54) -/

/-- But for STATUS a read shows KEY_LEN, ID_IN, ID_OUT and constants, whether a command is in progress or not. -/
theorem readWindow_congr {b b' : BlockState} (hl : b.keyLen = b'.keyLen) (hi : b.idIn = b'.idIn) {off : Byte}
    (hs : off ≠ 0x01#8) (ho : 0x30 ≤ off.toNat ∧ off.toNat ≤ 0x3F → b.idOut = b'.idOut) (c : Config)
    (busy busy' : Bool) : readWindow c busy b off = readWindow c busy' b' off := by
  rw [readWindow, readWindow]
  cases hr : regAt off with
  | status => exact absurd ((regAt_eq_status off).1 hr) hs
  | keyLen => exact hl
  | idIn i => rw [readReg, readReg, hi]
  | idOut i =>
    have hoff := (regAt_eq_idOut off i).1 hr
    rw [readReg, readReg, ho (by omega)]
  | cmd | blockId | blockRev | config | key _ | reserved => rfl

/-- KEY_LEN and ID_IN read as written. -/
theorem readWindow_storeWindow_self {off : Byte} (h : off = 0x02#8 ∨ (0x20 ≤ off.toNat ∧ off.toNat ≤ 0x2F))
    (c : Config) (busy : Bool) (b : BlockState) (v : Byte) :
    readWindow c busy (storeWindow b off v) off = v := by
  obtain rfl | hoff := h
  · rfl
  · rw [readWindow_idIn _ _ _ hoff, getElem_storeWindow_idIn, if_pos (by omega)]

/-- A store leaves every other offset alone. -/
theorem readWindow_storeWindow_ne {off off' : Byte} (h : off' ≠ off) (c : Config) (busy : Bool) (b : BlockState)
    (v : Byte) : readWindow c busy (storeWindow b off v) off' = readWindow c busy b off' := by
  have hne : off'.toNat ≠ off.toNat := fun h' => h (BitVec.eq_of_toNat_eq h')
  rw [readWindow, readWindow]
  cases hr : regAt off' with
  | status => rw [readReg, readReg, storeWindow_err, storeWindow_valid]
  | keyLen =>
    have hoff := congrArg BitVec.toNat ((regAt_eq_keyLen off').1 hr)
    rw [readReg, readReg, storeWindow_keyLen, if_neg fun h' => hne (hoff.trans h'.symm)]
  | idIn i =>
    have hoff := (regAt_eq_idIn off' i).1 hr
    exact (getElem_storeWindow_idIn b off v i i.isLt).trans (if_neg fun h' => hne (hoff.trans h'.symm))
  | idOut i => rw [readReg, readReg, storeWindow_idOut]
  | cmd | blockId | blockRev | config | key _ | reserved => rfl

/-! ## The addresses of the window (rules R7, R50) -/

theorem eq_hostAddress_of_offsetOf {c : Config} {a : Nat} {off : Byte} (h : offsetOf c a = some off) :
    a = hostAddress c off := by
  rw [offsetOf] at h
  split_ifs at h with hin
  cases h
  rw [hostAddress, BitVec.toNat_ofNat]
  omega

theorem offsetOf_outside {c : Config} {a : Nat} (h : a < c.base ∨ c.base + 256 ≤ a) : offsetOf c a = none :=
  if_neg (by omega)

end Sys2Proof.Machine

/-! ## The settled statements -/

namespace Sys2Proof.Accesses

open Machine

/-- Settles O2: a command is decoded from its one byte, and only from that byte. -/
theorem decodeEncode : Obligations.DecodeEncode := by
  refine ⟨fun _ => rfl, fun i rest => ?decodes, fun bs rest i h => ?encodes⟩
  case decodes =>
    show decode (encodeByte i :: rest) = _
    rw [decode, decodeByte_eq_ok.2 rfl]
  case encodes =>
    cases bs with
    | nil => cases h
    | cons c bs =>
      rw [decode] at h
      cases hc : decodeByte c with
      | error e => rw [hc] at h; cases h
      | ok j =>
        rw [hc] at h
        cases h
        rw [decodeByte_eq_ok.1 hc]
        rfl

/-- Settles O3: the byte that decodes to a command is its encoding, and a CMD write of that byte is the command. -/
theorem stepRunsDecoded : Obligations.StepRunsDecoded := by
  refine ⟨fun s c rest i hp hc => ?step, fun s i => ?fetch⟩
  case step => rw [step_cmd hp, decodeByte_eq_ok.1 hc, exec_eq]; rfl
  case fetch =>
    have hbyte : tableByte 8 (encodeByte i).toNat = encodeByte i :=
      (tableByte_eq_encodeByte (encodeByte i).isLt i).2 rfl
    rw [State.withFetchWord, fetchEvent, hbyte, step_cmd rfl, exec_eq]
    rfl

/-- Settles O6: with both checks passed ENCODE completes. -/
theorem encodeResult : Obligations.EncodeResult := fun _ hk hv =>
  ⟨_, exec_completes (i := .encode) hk hv, rfl, statusByte_success⟩

/-- Settles O7: with both checks passed DECODE completes. -/
theorem decodeResult : Obligations.DecodeResult := fun _ hk hv =>
  ⟨_, exec_completes (i := .decode) hk hv, rfl, statusByte_success⟩

/-- Settles O11: an outcome keeps the inputs and, if it is an error, ID_OUT, and but for STATUS a read shows nothing
else that changes. -/
theorem commandFrame : Obligations.CommandFrame := by
  intro i s t h
  rw [exec_eq] at h
  cases h
  simp only [withBlock_block, withBlock_config, withBlock_pending, withBlock_reads, finish_key, finish_keyLen,
    finish_idIn, true_and]
  generalize commandOutcome s.config (snapshot s.block) (encodeByte i) = r
  have hidOut : (finish r s.block).valid = false → (finish r s.block).idOut = s.block.idOut := by
    obtain ⟨hvalid, -⟩ | ⟨-, -, ho⟩ := finish_success_or_error r s.block
    · exact fun h => absurd (h.symm.trans hvalid) Bool.false_ne_true
    · exact fun _ => ho
  refine ⟨hidOut, fun off hs hout => readWindow_congr (finish_keyLen _ _) (finish_idIn _ _) hs ?_ _ _ _⟩
  exact fun hoff => hidOut (Bool.eq_false_iff.2 fun hvalid => hout ⟨hoff.1, hoff.2, hvalid⟩)

/-- Settles O21: the byte is stored where it is read, and the reads of other offsets see none of it. -/
theorem readAfterWrite : Obligations.ReadAfterWrite := by
  intro off v s t h0 h
  rw [hostStep_wr_other h0] at h
  cases h
  exact ⟨fun hoff => readWindow_storeWindow_self hoff _ _ _ _,
    fun _ hne => readWindow_storeWindow_ne hne _ _ _ _⟩

/-- Settles O23: subtracting BASE undoes adding it, and outside the window there is no offset. -/
theorem windowAddresses : Obligations.WindowAddresses := by
  refine ⟨offsetOf_hostAddress, fun _ _ _ => eq_hostAddress_of_offsetOf, fun c a v hout => ?outside⟩
  simp only [memRead, memWrite, if_true, offsetOf_outside hout, Option.map_none, and_self]

end Sys2Proof.Accesses
end

section
/-! Runs (20_memory.md sections 3 and 4): the order of the events, runs that never stop, two runs side by side, and the
settled statements about what a host sees of KEY (10_state.md section 3). -/

namespace Sys2Proof.Machine

/-! ## Runs, step by step -/

theorem run_succ_eq_next {n : Nat} {s t : State} :
    Host.Core.run core (n + 1) s = .next t ↔ ∃ u, step s = .next u ∧ Host.Core.run core n u = .next t := by
  cases hs : step s with
  | next u => rw [run_succ_next n hs]; simp
  | fault f => exact nomatch f
  | refused r => rw [run_succ_refused n hs]; simp

/-- A step keeps the configuration and takes at most the first of the accesses to come. -/
theorem step_keeps {s t : State} (h : step s = .next t) : t.config = s.config ∧ t.pending ⊆ s.pending := by
  obtain ⟨-, rfl⟩ | ⟨e, rest, hp, he⟩ := step_cases h
  · exact ⟨rfl, fun _ => id⟩
  · obtain ⟨hpending, hconfig⟩ := eventStep_keeps he
    rw [hpending, hp, withPending_pending]
    exact ⟨hconfig, List.subset_cons_self e rest⟩

/-- Whether an event is refused, and what it leaves, does not depend on the accesses to come. -/
theorem eventStep_withPending (e : Event) (s : State) :
    (∃ u : State, ∀ p, eventStep e (s.withPending p) = .next (u.withPending p)) ∨
    (∃ r, ∀ p, eventStep e (s.withPending p) = .refused r) := by
  cases e with
  | reset => exact .inl ⟨applyReset s, fun _ => rfl⟩
  | access op =>
    cases op with
    | rd off => exact .inl ⟨hostRead off s, fun _ => rfl⟩
    | wide off n => exact .inr ⟨_, fun _ => rfl⟩
    | wr off v =>
      by_cases h0 : off = 0x00#8
      · subst h0
        exact .inl ⟨s.withBlock (finish (commandOutcome s.config (snapshot s.block) v) s.block),
          fun p => hostStep_cmd v (s.withPending p)⟩
      · exact .inl ⟨s.withBlock (storeWindow s.block off v), fun p => hostStep_wr_other h0 v (s.withPending p)⟩

/-- A run of as many steps as there are events in front is these events, one after the other (rule R60). -/
theorem run_withPending_append (es rest : List Event) (s : State) :
    Host.Core.run core es.length (s.withPending (es ++ rest)) = runEvents es (s.withPending rest) := by
  induction es generalizing s with
  | nil => rfl
  | cons e es ih =>
    have hstep : step (s.withPending (e :: es ++ rest)) = eventStep e (s.withPending (es ++ rest)) := step_event rfl
    rw [runEvents, List.length_cons]
    obtain ⟨u, hu⟩ | ⟨r, hr⟩ := eventStep_withPending e s
    · rw [run_succ_next _ (hstep.trans (hu _)), ih, hu]
    · rw [run_succ_refused _ (hstep.trans (hr _)), hr]
      rfl

/-! ## Runs of one-byte accesses -/

theorem eventStep_of_oneByte {e : Event} (h : oneByte e = true) (s : State) : ∃ t, eventStep e s = .next t := by
  cases e with
  | reset => exact ⟨_, rfl⟩
  | access op =>
    cases op with
    | rd off => exact ⟨_, rfl⟩
    | wr off v =>
      by_cases h0 : off = 0x00#8
      · subst h0
        exact ⟨_, hostStep_cmd v s⟩
      · exact ⟨_, hostStep_wr_other h0 v s⟩
    | wide off n => exact absurd h Bool.false_ne_true

/-- A safe state has a next one. -/
theorem Safe.exists_step {s : State} (h : Safe s) : ∃ t, step s = .next t := by
  cases hp : s.pending with
  | nil => exact ⟨s, step_idle hp⟩
  | cons e rest =>
    rw [step_event hp]
    exact eventStep_of_oneByte (List.all_eq_true.1 h e (hp ▸ List.mem_cons_self)) _

theorem Safe.step {s t : State} (h : Safe s) (hstep : step s = .next t) : Safe t :=
  List.all_eq_true.2 fun e he => List.all_eq_true.1 h e ((step_keeps hstep).2 he)

/-! ## Two runs side by side -/

/-- A relation that the steps of a run keep, the other machine stepping along, holds at the ends of both runs. -/
theorem run_simulation {R : State → State → Prop} {n : Nat} {s s' t : State}
    (hstep : ∀ (k : Nat) (m m' u : State), k < n → Host.Core.run core k s = .next m → R m m' → step m = .next u →
      ∃ u', step m' = .next u' ∧ R u u')
    (hR : R s s') (h : Host.Core.run core n s = .next t) : ∃ t', Host.Core.run core n s' = .next t' ∧ R t t' := by
  induction n generalizing s s' with
  | zero => cases h; exact ⟨s', rfl, hR⟩
  | succ n ih =>
    obtain ⟨u, hu, hrun⟩ := run_succ_eq_next.1 h
    obtain ⟨u', hu', hR'⟩ := hstep 0 s s' u n.succ_pos rfl hR hu
    obtain ⟨t', ht', hRt⟩ := ih (fun k m m' w hk hm => hstep (k + 1) m m' w (Nat.succ_lt_succ hk)
      (run_succ_eq_next.2 ⟨u, hu, hm⟩)) hR' hrun
    exact ⟨t', run_succ_eq_next.2 ⟨u', hu', ht'⟩, hRt⟩

/-! ## Machines that differ in KEY alone -/

/-- The machine with another KEY. -/
def State.withKey (s : State) (k : Bytes 16) : State := { s with block := { s.block with key := k } }

@[simp] theorem withKey_config (s : State) (k : Bytes 16) : (s.withKey k).config = s.config := rfl

/-- No read shows KEY (rule R23). -/
theorem readWindow_with_key (c : Config) (busy : Bool) (b : BlockState) (k : Bytes 16) (off : Byte) :
    readWindow c busy { b with key := k } off = readWindow c busy b off := by
  rw [readWindow, readWindow]
  cases regAt off <;> rfl

theorem hostRead_withKey (off : Byte) (s : State) (k : Bytes 16) :
    hostRead off (s.withKey k) = (hostRead off s).withKey k := by
  rw [hostRead, State.withKey, readWindow_with_key]
  rfl

/-- A store takes no other register's byte from KEY. -/
theorem storeWindow_with_key (b : BlockState) (k : Bytes 16) (off v : Byte) :
    storeWindow { b with key := k } off v =
      { storeWindow b off v with key := (storeWindow { b with key := k } off v).key } := by
  rw [storeWindow, storeWindow]
  cases regAt off <;> rfl

theorem finish_with_key (r : Except CmdError (Bytes 16)) (b : BlockState) (k : Bytes 16) :
    finish r { b with key := k } = { finish r b with key := k } := by
  cases r <;> rfl

/-- An event treats two machines that differ in KEY alone alike, as long as a CMD write has the same outcome on both;
if it writes no KEY byte, they differ as before or, after reset, not at all. -/
theorem eventStep_withKey {e : Event} {s t : State} {k : Bytes 16} (h : eventStep e s = .next t)
    (hcmd : ∀ c, e = .access (.wr 0x00#8 c) → commandOutcome s.config (snapshot (s.withKey k).block) c =
      commandOutcome s.config (snapshot s.block) c) :
    ∃ k', eventStep e (s.withKey k) = .next (t.withKey k') ∧
      ((∀ off v, e = .access (.wr off v) → ¬ (0x10 ≤ off.toNat ∧ off.toNat ≤ 0x1F)) →
        t.withKey k' = t ∨ t.block.key = s.block.key ∧ k' = k) := by
  obtain ⟨rfl, rfl⟩ | ⟨off, rfl, rfl⟩ | ⟨c, rfl, rfl⟩ | ⟨off, v, rfl, h0, rfl⟩ := eventStep_cases h
  case inl => exact ⟨BlockState.reset.key, rfl, fun _ => .inl rfl⟩
  case inr.inl => exact ⟨k, congrArg Host.Outcome.next (hostRead_withKey off s k), fun _ => .inr ⟨rfl, rfl⟩⟩
  case inr.inr.inl =>
    refine ⟨k, ?_, fun _ => .inr ⟨finish_key _ _, rfl⟩⟩
    refine (hostStep_cmd c (s.withKey k)).trans ?_
    rw [withKey_config, hcmd c rfl]
    exact congrArg (fun b => Host.Outcome.next ((s.withKey k).withBlock b)) (finish_with_key _ s.block k)
  case inr.inr.inr =>
    refine ⟨(storeWindow { s.block with key := k } off v).key, ?_, fun hkey => .inr ?_⟩
    · refine (hostStep_wr_other h0 v (s.withKey k)).trans ?_
      exact congrArg (fun b => Host.Outcome.next ((s.withKey k).withBlock b)) (storeWindow_with_key s.block k off v)
    · have hoff := hkey off v rfl
      exact ⟨(storeWindow_key_eq_or s.block off v).resolve_right hoff,
        (storeWindow_key_eq_or { s.block with key := k } off v).resolve_right hoff⟩

/-- The same for a step. -/
theorem step_withKey {s t : State} {k : Bytes 16} (h : step s = .next t)
    (hcmd : ∀ c, s.pending.head? = some (.access (.wr 0x00#8 c)) →
      commandOutcome s.config (snapshot (s.withKey k).block) c = commandOutcome s.config (snapshot s.block) c) :
    ∃ k', step (s.withKey k) = .next (t.withKey k') ∧
      ((∀ off v, Event.access (.wr off v) ∈ s.pending → ¬ (0x10 ≤ off.toNat ∧ off.toNat ≤ 0x1F)) →
        t.withKey k' = t ∨ t.block.key = s.block.key ∧ k' = k) := by
  obtain ⟨hp, rfl⟩ | ⟨e, rest, hp, he⟩ := step_cases h
  · exact ⟨k, step_idle hp, fun _ => .inr ⟨rfl, rfl⟩⟩
  · obtain ⟨k', hk', hkey⟩ := eventStep_withKey (k := k) he fun c hc => hcmd c (by rw [hp, hc, List.head?_cons])
    refine ⟨k', (step_event (s := s.withKey k) hp).trans hk', fun hwr => hkey fun off v hev => hwr off v ?_⟩
    rw [hp, hev]
    exact List.mem_cons_self

/-- An outcome reads KEY through the mask alone (rules R136, R174). -/
theorem codecOutcome_congr_mask {c : Config} {i i' : CmdInputs} (hk : i.keyLen = i'.keyLen) (hi : i.idIn = i'.idIn)
    (hm : mask (prfOf c.prf) i.key i'.idIn = mask (prfOf c.prf) i'.key i'.idIn) (want v : BitVec 4) :
    codecOutcome c i want v = codecOutcome c i' want v := by
  simp only [codecOutcome, xcode_eq, hk, hi, hm]

/-- Two keys with equal masks for the input give every command byte the same outcome. -/
theorem commandOutcome_withKey {s : State} {k : Bytes 16} {c : Byte}
    (hmask : c = 0x01#8 ∨ c = 0x02#8 →
      mask (prfOf s.config.prf) s.block.key s.block.idIn = mask (prfOf s.config.prf) k s.block.idIn) :
    commandOutcome s.config (snapshot (s.withKey k).block) c = commandOutcome s.config (snapshot s.block) c := by
  have hcodec := fun hc => codecOutcome_congr_mask (i := snapshot (s.withKey k).block) (i' := snapshot s.block)
    (c := s.config) rfl rfl (hmask hc).symm
  obtain ⟨rfl, -⟩ | ⟨rfl, -⟩ | ⟨h1, h2, hout⟩ := commandOutcome_cases s.config (snapshot s.block) c
  · exact hcodec (.inl rfl) 7#4 4#4
  · exact hcodec (.inr rfl) 4#4 7#4
  · rw [hout, commandOutcome_illegal h1 h2]

/-- Machines that differ in KEY alone, with no CMD write to come. -/
def DifferInKey (s s' : State) : Prop :=
  (∀ v, Event.access (.wr 0x00#8 v) ∉ s.pending) ∧ ∃ k, s' = s.withKey k

theorem DifferInKey.step {s s' t : State} (hR : DifferInKey s s') (h : step s = .next t) :
    ∃ t', step s' = .next t' ∧ DifferInKey t t' := by
  obtain ⟨hcmd, k, rfl⟩ := hR
  obtain ⟨k', hk', -⟩ := step_withKey (k := k) h fun c hc => absurd (List.mem_of_head? hc) (hcmd c)
  exact ⟨_, hk', fun v hv => hcmd v ((step_keeps h).2 hv), k', rfl⟩

/-- Machines with KEY `k0` in the one and `k1` in the other, or, after reset, no difference; of configuration `c`, and
with no write of KEY to come. -/
def KeyedApart (c : Config) (k0 k1 : Bytes 16) (s s' : State) : Prop :=
  s.config = c ∧ (∀ off v, Event.access (.wr off v) ∈ s.pending → ¬ (0x10 ≤ off.toNat ∧ off.toNat ≤ 0x1F)) ∧
    (s' = s ∨ s.block.key = k0 ∧ s' = s.withKey k1)

theorem KeyedApart.step {c : Config} {k0 k1 : Bytes 16} {s s' t : State} (hR : KeyedApart c k0 k1 s s')
    (hmask : ∀ byte, s.pending.head? = some (.access (.wr 0x00#8 byte)) → byte = 0x01#8 ∨ byte = 0x02#8 →
      s.block.key = k0 → mask (prfOf c.prf) k0 s.block.idIn = mask (prfOf c.prf) k1 s.block.idIn)
    (h : step s = .next t) : ∃ t', step s' = .next t' ∧ KeyedApart c k0 k1 t t' := by
  obtain ⟨rfl, hwr, hkeys⟩ := hR
  obtain ⟨hconfig, hsub⟩ := step_keeps h
  have hwr' : ∀ off v, Event.access (.wr off v) ∈ t.pending → ¬ (0x10 ≤ off.toNat ∧ off.toNat ≤ 0x1F) :=
    fun off v hv => hwr off v (hsub hv)
  obtain rfl | ⟨rfl, rfl⟩ := hkeys
  · exact ⟨t, h, hconfig, hwr', .inl rfl⟩
  · obtain ⟨k', hk', hkey⟩ := step_withKey (k := k1) h fun byte hb =>
      commandOutcome_withKey fun hbyte => hmask byte hb hbyte rfl
    refine ⟨_, hk', hconfig, hwr', (hkey hwr).imp id ?_⟩
    rintro ⟨ht, rfl⟩
    exact ⟨ht, rfl⟩

end Sys2Proof.Machine

/-! ## The settled statements -/

namespace Sys2Proof.Runs

open Machine

/-- Settles O26: the run and the sequence of events have the same outcome, whatever it is. -/
theorem runTakesEventsInOrder : Obligations.RunTakesEventsInOrder := fun es rest s _ =>
  (Eq.congr_left (run_withPending_append es rest s)).symm

/-- Settles O31, by induction on the number of steps. -/
theorem safeRunsGoOn : Obligations.SafeRunsGoOn := by
  intro s n hs
  induction n generalizing s with
  | zero => exact ⟨s, rfl, hs⟩
  | succ n ih =>
    obtain ⟨u, hu⟩ := hs.exists_step
    obtain ⟨t, ht, hsafe⟩ := ih u (hs.step hu)
    exact ⟨t, run_succ_eq_next.2 ⟨u, hu, ht⟩, hsafe⟩

/-- Settles O32: no event but a CMD write carries KEY into another register or into a read. -/
theorem keyNotReadable : Obligations.KeyNotReadable := by
  intro s key' n t hcmd h
  obtain ⟨t', ht', -, k, rfl⟩ := run_simulation (R := DifferInKey)
    (fun _ _ _ _ _ _ hR hu => hR.step hu) ⟨hcmd, key', rfl⟩ h
  exact ⟨_, ht', rfl⟩

/-- Settles O33: a command carries no more of KEY than the mask for its ID_IN. -/
theorem keySeenThroughMask : Obligations.KeySeenThroughMask := by
  intro s key' n t hwr hmask h
  obtain ⟨t', ht', -, -, hkeys⟩ := run_simulation (R := KeyedApart s.config s.block.key key')
    (fun k m _ _ hk hm hR hu => hR.step (fun byte => hmask k m byte hk hm) hu) ⟨rfl, hwr, .inr ⟨rfl, rfl⟩⟩ h
  refine ⟨t', ht', ?_⟩
  obtain rfl | ⟨-, rfl⟩ := hkeys
  · exact ⟨rfl, rfl, rfl, rfl⟩
  · exact ⟨rfl, rfl, rfl, rfl⟩

end Sys2Proof.Runs
end

section
/-! Identifiers and vectors: the identifier of any four fields (40_field_ops.md section 1), the published vectors of the
reference PRF and the source's vector of the transform (95_test_vectors.md), and the settled statements about them. -/

namespace Sys2Proof.Machine

/-! ## The identifier of four fields (rule R100) -/

/-- The identifier that has the four fields. -/
def ofFields (k : Bytes 6) (v : BitVec 4) (r : BitVec 2) (f : BitVec 74) : Bytes 16 :=
  Vector.ofFn fun i =>
    if h : i.val < 6 then k[i.val]
    else if i.val = 6 then v ++ f.extractLsb' 70 4
    else if i.val = 7 then f.extractLsb' 62 8
    else if i.val = 8 then r ++ f.extractLsb' 56 6
    else f.extractLsb' (8 * (15 - i.val)) 8

section
variable (k : Bytes 6) (v : BitVec 4) (r : BitVec 2) (f : BitVec 74)

theorem getElem_ofFields_lo (i : Nat) (hi : i < 6) : (ofFields k v r f)[i] = k[i] := by simp [ofFields, hi]

theorem getElem_ofFields_six : (ofFields k v r f)[6] = v ++ f.extractLsb' 70 4 := by simp [ofFields]

theorem getElem_ofFields_seven : (ofFields k v r f)[7] = f.extractLsb' 62 8 := by simp [ofFields]

theorem getElem_ofFields_eight : (ofFields k v r f)[8] = r ++ f.extractLsb' 56 6 := by simp [ofFields]

theorem getElem_ofFields_hi (i : Nat) (hi : i < 16) (h9 : 9 ≤ i) :
    (ofFields k v r f)[i] = f.extractLsb' (8 * (15 - i)) 8 := by
  rw [ofFields, Vector.getElem_ofFn, dif_neg (by dsimp only; omega), if_neg (by dsimp only; omega),
    if_neg (by dsimp only; omega), if_neg (by dsimp only; omega)]

theorem ts_ofFields : ts (ofFields k v r f) = k := by
  ext1 i hi
  rw [getElem_ts, getElem_ofFields_lo]

theorem ver_ofFields : ver (ofFields k v r f) = v := by
  rw [ver, getElem_ofFields_six]
  exact BitVec.extractLsb'_append_eq_left

theorem var_ofFields : var (ofFields k v r f) = r := by
  rw [var, getElem_ofFields_eight]
  exact BitVec.extractLsb'_append_eq_left

/-- The pieces of the free bits, side by side, are the free bits. -/
theorem free_ofFields : free (ofFields k v r f) = f := by
  have h6 : (ofFields k v r f)[6].extractLsb' 0 4 = f.extractLsb' 70 4 := by
    rw [getElem_ofFields_six]
    exact BitVec.extractLsb'_append_eq_right
  have h8 : (ofFields k v r f)[8].extractLsb' 0 6 = f.extractLsb' 56 6 := by
    rw [getElem_ofFields_eight]
    exact BitVec.extractLsb'_append_eq_right
  have hhi := getElem_ofFields_hi k v r f
  rw [free, BitVec.cast_eq, h6, getElem_ofFields_seven, h8, hhi 9 _ (by decide), hhi 10 _ (by decide),
    hhi 11 _ (by decide), hhi 12 _ (by decide), hhi 13 _ (by decide), hhi 14 _ (by decide), hhi 15 _ (by decide)]
  repeat rw [BitVec.extractLsb'_append_extractLsb'_eq_extractLsb' (by decide)]
  exact BitVec.extractLsb'_eq_self

end

end Sys2Proof.Machine

/-! ## The settled statements -/

namespace Sys2Proof.Vectors

open Machine

/-- Settles O34: the fields put together give them back, and no other identifier has them. -/
theorem fieldPartition : Obligations.FieldPartition := by
  intro k v r f
  refine ⟨ofFields k v r f, ⟨ts_ofFields k v r f, ver_ofFields k v r f, var_ofFields k v r f, free_ofFields k v r f⟩,
    ?unique⟩
  rintro u ⟨rfl, rfl, rfl, rfl⟩
  exact identifier_ext (ts_ofFields _ _ _ _).symm (ver_ofFields _ _ _ _).symm (var_ofFields _ _ _ _).symm
    (free_ofFields _ _ _ _).symm

/-- Settles O43, by computation of the two tags. -/
theorem publishedSipVectors : Obligations.PublishedSipVectors := by
  refine ⟨?empty, ?fifteen⟩
  case empty => decide +kernel
  case fifteen => decide +kernel

/-- Settles O48: the facade is computed from the vector's mask, and the round trip under one key takes it back to the
source's identifier, whose version is 7 and whose variant is `10`. -/
theorem sourceVector : Obligations.SourceVector := by
  obtain ⟨-, -, -, -, -, -, hmask⟩ := KeyedHash.keyedHashBytes
  have hencode : xcode referencePrf (beBytes 16 0x018f2d9f9a2a7def8c3f7b1a2c4d5e6f)
      (beBytes 16 0x0123456789abcdeffedcba9876543210) 4#4 = beBytes 16 0x2463c7807fca4def8c3f7b1a2c4d5e6f := by
    rw [xcode_eq, hmask]
    decide
  refine ⟨hencode, ?decode⟩
  rw [← hencode, xcode_xcode_same]
  exact setVV_eq_self_iff.2 (by decide)

end Sys2Proof.Vectors
end

section
/-! Host lines and reset: the reads of `getout` (30_encoding.md section 2), the event of reset (70_reset_and_hazards.md
section 1), and the settled statements about what each leaves. -/

namespace Sys2Proof.Machine

theorem hostRead_idOut_offset (i : Fin 16) (s : State) :
    hostRead (0x30#8 + BitVec.ofNat 8 i.val) s = { s with reads := s.reads ++ [s.block.idOut[i]] } := by
  rw [hostRead, readWindow, regAt_idOut_offset, readReg]

/-- Reads of the ID_OUT bytes at the indices `is`, in that order. -/
theorem runActs_reads (is : List (Fin 16)) (s : State) :
    runActs (is.map fun i => .op (.rd (0x30#8 + BitVec.ofNat 8 i.val))) s =
      .next { s with reads := s.reads ++ is.map fun i => s.block.idOut[i] } := by
  induction is generalizing s with
  | nil => simp [runActs]
  | cons i is ih =>
    rw [List.map_cons, runActs_op (hostDo_rd _ s), hostRead_idOut_offset, ih]
    simp

theorem runAsm_getout (s : State) :
    runAsm [.getout] s = .next { s with reads := s.reads ++ s.block.idOut.toList } := by
  rw [runAsm, List.flatMap_singleton, expand, ← List.map_coe_finRange_eq_range, List.map_map]
  exact (runActs_reads (List.finRange 16) s).trans (by rw [map_finRange_getElem])

end Sys2Proof.Machine

/-! ## The settled statements -/

namespace Sys2Proof.Lines

open Machine

/-- Settles O49: one equation per line. -/
theorem pseudoInstructions : Obligations.PseudoInstructions :=
  ⟨runAsm_setkey, runAsm_setid, runAsm_getout, runAsm_movout⟩

/-- Settles O51: reset replaces the registers by their reset values, and each constant reads as it is. -/
theorem resetValues : Obligations.ResetValues := by
  refine ⟨fun _ => rfl, fun l => ⟨applyReset l.arch, rfl, rfl⟩, fun s t h => ?values⟩
  cases h
  exact ⟨rfl, statusByte_fresh, readWindow_blockId _ _ _, readWindow_blockRev _ _ _, rfl⟩

end Sys2Proof.Lines
end

section
/-! Implementations with latency (70_reset_and_hazards.md sections 2 and 3): what a tick, a start and a completion do,
what the registers are once a command in progress has completed, and the settled statements. -/

namespace Sys2Proof.Machine

/-! ## A command in progress and its completion (rule R241) -/

/-- An outcome overwrites VALID and ERR. -/
theorem finish_with_status (r : Except CmdError (Bytes 16)) (b : BlockState) (valid : Bool) (err : BitVec 4) :
    finish r { b with valid := valid, err := err } = finish r b := by
  cases r <;> rfl

theorem busy_eq_false_iff {l : LatState} : busy l = false ↔ l.inflight = none := by
  rw [busy, Option.isSome_eq_false_iff, Option.isNone_iff_eq_none]

theorem busy_eq_true_iff {l : LatState} : busy l = true ↔ ∃ f, l.inflight = some f := Option.isSome_iff_exists

theorem settled_of_idle {l : LatState} (h : busy l = false) : settled l = l.arch := by
  rw [settled, busy_eq_false_iff.1 h]

theorem settled_of_inflight {l : LatState} {f : InFlight} (h : l.inflight = some f) :
    settled l = (latFinish f l).arch := by
  rw [settled, h]

@[simp] theorem settled_config (l : LatState) : (settled l).config = l.arch.config := by
  rw [settled]
  cases l.inflight <;> rfl

@[simp] theorem settled_reads (l : LatState) : (settled l).reads = l.arch.reads := by
  rw [settled]
  cases l.inflight <;> rfl

@[simp] theorem settled_keyLen (l : LatState) : (settled l).block.keyLen = l.arch.block.keyLen := by
  rw [settled]
  cases l.inflight with
  | none => rfl
  | some f => exact finish_keyLen _ _

@[simp] theorem settled_idIn (l : LatState) : (settled l).block.idIn = l.arch.block.idIn := by
  rw [settled]
  cases l.inflight with
  | none => rfl
  | some f => exact finish_idIn _ _

/-- The bytes the host has read do not matter to the registers. -/
theorem settled_with_reads (l : LatState) (bytes : List Byte) :
    settled { l with arch := { l.arch with reads := bytes } } = { settled l with reads := bytes } := by
  rw [settled, settled]
  cases l.inflight <;> rfl

/-! ## Starting a command -/

theorem latStart_of_latency_zero {l : LatState} (h : l.arch.config.latency = 0) (v : Byte) :
    latStart v l = latFinish { left := 0, byte := v, inputs := snapshot l.arch.block } l := by
  rw [latStart, h, if_pos rfl]

theorem latStart_of_latency_pos {l : LatState} (h : 0 < l.arch.config.latency) (v : Byte) :
    latStart v l =
      { arch := l.arch.withBlock { l.arch.block with valid := false, err := 0x0#4 },
        inflight := some { left := l.arch.config.latency, byte := v, inputs := snapshot l.arch.block } } :=
  if_neg h.ne'

theorem latStep_cmd {l : LatState} (h : busy l = false) (v : Byte) :
    latStep (.bus (.access (.wr 0x00#8 v))) l = .next (latStart v l) := by
  rw [latStep, latAccess, h]
  rfl

/-- Whatever the latency, a command leads to what the atomic machine leaves in the step of its CMD write. -/
theorem settled_latStart (v : Byte) (l : LatState) :
    settled (latStart v l) =
      l.arch.withBlock (finish (commandOutcome l.arch.config (snapshot l.arch.block) v) l.arch.block) := by
  obtain h | h := Nat.eq_zero_or_pos l.arch.config.latency
  · rw [latStart_of_latency_zero h, settled_of_idle (busy_latFinish _ _)]
    rfl
  · rw [latStart_of_latency_pos h, settled_of_inflight rfl, latFinish, withBlock_withBlock, withBlock_block,
      finish_with_status]
    rfl

/-! ## Ticks -/

theorem latTick_of_idle {l : LatState} (h : busy l = false) : latTick l = l := by
  rw [latTick, busy_eq_false_iff.1 h]

theorem latTick_of_last {l : LatState} {f : InFlight} (h : l.inflight = some f) (hleft : f.left ≤ 1) :
    latTick l = latFinish f l := by
  rw [latTick, h]
  exact if_pos hleft

theorem latTick_of_not_last {l : LatState} {f : InFlight} (h : l.inflight = some f) (hleft : 1 < f.left) :
    latTick l = { l with inflight := some { f with left := f.left - 1 } } := by
  rw [latTick, h]
  exact if_neg (by omega)

/-- Everything a tick can do: nothing, the completion, or one tick less to go. -/
theorem latTick_cases (l : LatState) :
    (busy l = false ∧ latTick l = l) ∨
    (∃ f, l.inflight = some f ∧ f.left ≤ 1 ∧ latTick l = latFinish f l) ∨
    (∃ f, l.inflight = some f ∧ 1 < f.left ∧
      latTick l = { l with inflight := some { f with left := f.left - 1 } }) := by
  cases hb : busy l with
  | false => exact .inl ⟨rfl, latTick_of_idle hb⟩
  | true =>
    obtain ⟨f, hf⟩ := busy_eq_true_iff.1 hb
    obtain hleft | hleft := Nat.lt_or_ge 1 f.left
    · exact .inr (.inr ⟨f, hf, hleft, latTick_of_not_last hf hleft⟩)
    · exact .inr (.inl ⟨f, hf, hleft, latTick_of_last hf hleft⟩)

/-- A tick changes nothing of what a command leads to. -/
theorem settled_latTick (l : LatState) : settled (latTick l) = settled l := by
  obtain ⟨-, h⟩ | ⟨f, hf, -, h⟩ | ⟨f, hf, -, h⟩ := latTick_cases l
  · rw [h]
  · rw [h, settled_of_idle (busy_latFinish f l), settled_of_inflight hf]
  · rw [h, settled_of_inflight rfl, settled_of_inflight hf]
    rfl

/-- Fewer ticks than are left bring a command nearer to its completion, and no further. -/
theorem latRun_ticks_of_lt {k : Nat} {l : LatState} {f : InFlight} (h : l.inflight = some f) (hk : k < f.left) :
    latRun (List.replicate k .tick) l = .next { l with inflight := some { f with left := f.left - k } } := by
  induction k generalizing l f with
  | zero => rw [Nat.sub_zero, ← h]; rfl
  | succ k ih =>
    have htick := latTick_of_not_last h (by omega)
    show latRun (List.replicate k .tick) (latTick l) = _
    rw [htick, ih rfl (by dsimp only; omega)]
    simp only [Nat.sub_sub, Nat.add_comm 1 k]

theorem latRun_append {es : List LatEvent} {l l' : LatState} (h : latRun es l = .next l') (fs : List LatEvent) :
    latRun (es ++ fs) l = latRun fs l' := by
  induction es generalizing l with
  | nil => cases h; rfl
  | cons e es ih =>
    rw [List.cons_append, latRun]
    rw [latRun] at h
    cases he : latStep e l with
    | next u => rw [he] at h; exact ih h
    | fault f => exact nomatch f
    | refused r => rw [he] at h; cases h

/-- As many ticks as are left complete a command. -/
theorem latRun_ticks_left {l : LatState} {f : InFlight} (h : l.inflight = some f) (hleft : 0 < f.left) :
    ∃ m, latRun (List.replicate f.left .tick) l = .next m ∧ busy m = false ∧ m.arch = settled l := by
  obtain ⟨k, hk⟩ := Nat.exists_eq_add_of_lt hleft
  have hleft : f.left = k + 1 := by omega
  refine ⟨latFinish { f with left := 1 } { l with inflight := some { f with left := 1 } }, ?_, rfl,
    (settled_of_inflight h).symm⟩
  rw [hleft, List.replicate_succ', latRun_append (latRun_ticks_of_lt h (by omega)), hleft, Nat.add_sub_cancel_left]
  rfl

/-! ## The invariant of an implementation -/

/-- With no command in progress the invariant is that of the registers. -/
theorem latInv_of_idle {l : LatState} (h : busy l = false) (hinv : BlockInv l.arch.block) : LatInv l where
  inProgress f hf := by rw [busy_eq_false_iff.1 h] at hf; cases hf
  idOutForm := hinv.idOutForm
  settledInv := by rw [settled_of_idle h]; exact hinv

theorem LatInv.blockInv_of_idle {l : LatState} (hinv : LatInv l) (h : busy l = false) : BlockInv l.arch.block := by
  have hsettled := hinv.settledInv
  rwa [settled_of_idle h] at hsettled

theorem LatInv.latTick {l : LatState} (hinv : LatInv l) : LatInv (latTick l) := by
  obtain ⟨-, h⟩ | ⟨f, hf, -, h⟩ | ⟨f, hf, hleft, h⟩ := latTick_cases l
  · rwa [h]
  · rw [h]
    refine latInv_of_idle (busy_latFinish f l) ?_
    rw [← settled_of_inflight hf]
    exact hinv.settledInv
  · obtain ⟨-, hlatency, hrest⟩ := hinv.inProgress f hf
    have hsettled := settled_latTick l
    rw [h] at hsettled ⊢
    refine ⟨?_, hinv.idOutForm, hsettled ▸ hinv.settledInv⟩
    rintro g ⟨⟩
    exact ⟨by dsimp only; omega, by dsimp only; omega, hrest⟩

theorem LatInv.latStart {l : LatState} (hinv : LatInv l) (v : Byte) : LatInv (latStart v l) := by
  have hfinish := blockInv_finish_commandOutcome hinv.idOutForm l.arch.config (snapshot l.arch.block) v
  obtain h | h := Nat.eq_zero_or_pos l.arch.config.latency
  · rw [latStart_of_latency_zero h]
    exact latInv_of_idle (busy_latFinish _ _) hfinish
  · have hsettled := settled_latStart v l
    rw [latStart_of_latency_pos h] at hsettled ⊢
    refine ⟨?_, hinv.idOutForm, hsettled ▸ hfinish⟩
    rintro g ⟨⟩
    exact ⟨h, le_rfl, rfl, rfl, rfl⟩

theorem LatInv.with_reads {l : LatState} (hinv : LatInv l) (bytes : List Byte) :
    LatInv { l with arch := { l.arch with reads := bytes } } where
  inProgress := hinv.inProgress
  idOutForm := hinv.idOutForm
  settledInv := by rw [settled_with_reads]; exact hinv.settledInv

/-! ## A host that keeps the polling duty -/

/-- A read that is neither a poll nor against the duty shows what it would show after completion. -/
theorem latReadByte_of_keepsDuty {l : LatState} {off : Byte} (hduty : keepsDuty l (.bus (.access (.rd off))) = true)
    (hpoll : isPoll l (.bus (.access (.rd off))) = false) :
    latReadByte off l = readWindow (settled l).config false (settled l).block off := by
  rw [latReadByte, settled_config]
  cases hb : busy l with
  | false => rw [settled_of_idle hb]
  | true =>
    refine readWindow_congr (settled_keyLen l).symm (settled_idIn l).symm ?status ?idOut _ _ _
    case status =>
      rintro rfl
      rw [isPoll, hb] at hpoll
      exact absurd hpoll (by decide)
    case idOut =>
      intro hoff
      rw [keepsDuty, hb, regAt_idOut hoff] at hduty
      exact absurd hduty Bool.false_ne_true

/-- A write that keeps the duty while a command is in progress would be ignored without one too. -/
theorem storeWindow_of_keepsDuty {l : LatState} {off v : Byte} (hb : busy l = true)
    (hduty : keepsDuty l (.bus (.access (.wr off v))) = true) (b : BlockState) :
    off ≠ 0x00#8 ∧ storeWindow b off v = b := by
  rw [keepsDuty, hb] at hduty
  refine ⟨?cmd, ?store⟩
  case cmd =>
    rintro rfl
    exact absurd hduty (by decide)
  case store =>
    rw [storeWindow]
    cases hr : regAt off with
    | key _ | keyLen | idIn _ => rw [hr] at hduty; exact absurd hduty Bool.false_ne_true
    | cmd | status | blockId | blockRev | config | idOut _ | reserved => rfl

theorem runEvents_singleton {e : Event} {s t : State} (h : eventStep e s = .next t) : runEvents [e] s = .next t := by
  rw [runEvents, h]
  rfl

/-- The atomic machine that has the registers an implementation has once its command in progress has completed. -/
def Settles (l : LatState) (s : State) : Prop := s.block = (settled l).block ∧ s.config = (settled l).config

theorem Settles.with_reads {l : LatState} {s : State} (h : Settles l s) (bytes bytes' : List Byte) :
    Settles { l with arch := { l.arch with reads := bytes } } { s with reads := bytes' } := by
  rw [Settles, settled_with_reads]
  exact h

/-- One event that keeps the duty, on both machines. -/
theorem latStep_simulation {e : LatEvent} {l l' : LatState} {s : State} (hduty : keepsDuty l e = true)
    (h : latStep e l = .next l') (hs : Settles l s) :
    ∃ t, runEvents (seenEvents l e) s = .next t ∧ Settles l' t ∧ t.reads = s.reads ++ resultOf l e := by
  have ⟨hblock, hconfig⟩ := hs
  obtain ⟨rfl, rfl⟩ | ⟨rfl, rfl⟩ | ⟨off, rfl, rfl⟩ | ⟨off, v, rfl, hb, rfl⟩ | ⟨v, rfl, hb, rfl⟩ |
    ⟨off, v, rfl, hb, h0, rfl⟩ := latStep_cases h
  case inl =>
    refine ⟨s, rfl, ?_, (List.append_nil _).symm⟩
    rw [Settles, settled_latTick]
    exact ⟨hblock, hconfig⟩
  case inr.inl => exact ⟨applyReset s, rfl, ⟨rfl, hconfig.trans (settled_config l)⟩, (List.append_nil _).symm⟩
  case inr.inr.inl =>
    cases hpoll : isPoll l (.bus (.access (.rd off))) with
    | true =>
      rw [seenEvents, resultOf, hpoll]
      exact ⟨s, rfl, hs.with_reads _ s.reads, (List.append_nil _).symm⟩
    | false =>
      rw [seenEvents, resultOf, hpoll, latReadByte_of_keepsDuty hduty hpoll, ← hblock, ← hconfig]
      exact ⟨hostRead off s, rfl, hs.with_reads _ _, rfl⟩
  case inr.inr.inr.inl =>
    obtain ⟨h0, hstore⟩ := storeWindow_of_keepsDuty hb hduty s.block
    refine ⟨s, ?_, ⟨hblock, hconfig⟩, (List.append_nil _).symm⟩
    refine runEvents_singleton ((hostStep_wr_other h0 v s).trans ?_)
    rw [hstore, withBlock_self]
  case inr.inr.inr.inr.inl =>
    rw [settled_of_idle hb] at hblock hconfig
    refine ⟨_, runEvents_singleton (hostStep_cmd v s), ?_, (List.append_nil _).symm⟩
    rw [Settles, settled_latStart, hblock, hconfig]
    exact ⟨rfl, hconfig⟩
  case inr.inr.inr.inr.inr =>
    rw [settled_of_idle hb] at hblock hconfig
    refine ⟨_, runEvents_singleton (hostStep_wr_other h0 v s), ?_, (List.append_nil _).symm⟩
    have hidle : busy { l with arch := l.arch.withBlock (storeWindow l.arch.block off v) } = false := hb
    rw [Settles, settled_of_idle hidle, hblock]
    exact ⟨rfl, hconfig⟩

/-- A sequence of events that keeps the duty, on both machines. -/
theorem latRun_simulation {es : List LatEvent} {l l' : LatState} {s : State} (hduty : dutiful es l = true)
    (h : latRun es l = .next l') (hs : Settles l s) :
    ∃ t, runEvents (atomicEvents es l) s = .next t ∧ Settles l' t ∧ t.reads = s.reads ++ results es l := by
  induction es generalizing l s with
  | nil => cases h; exact ⟨s, rfl, hs, (List.append_nil _).symm⟩
  | cons e es ih =>
    rw [latRun] at h
    rw [dutiful, Bool.and_eq_true] at hduty
    rw [atomicEvents, results]
    cases he : latStep e l with
    | fault f => exact nomatch f
    | refused r => rw [he] at h; cases h
    | next u =>
      rw [he] at h hduty
      obtain ⟨m, hm, hsettles, hreads⟩ := latStep_simulation hduty.1 he hs
      obtain ⟨t, ht, hsettles', hreads'⟩ := ih hduty.2 h hsettles
      exact ⟨t, (runEvents_append hm _).trans ht, hsettles', by rw [hreads', hreads, List.append_assoc]⟩

end Sys2Proof.Machine

/-! ## The settled statements -/

namespace Sys2Proof.Latency

open Machine

/-- Settles O53: the start puts the command in progress, writes are ignored, and as long as the command is in progress
an event only brings it nearer to its completion or hands the host a byte. -/
theorem busyBehaviour : Obligations.BusyBehaviour := by
  refine ⟨fun l l' v hb hpos h => ?start, fun l off v hb => ?ignored, fun l l' e hb hstatus h hb' => ?progress⟩
  case start =>
    rw [latStep_cmd hb] at h
    cases h
    rw [latStart_of_latency_pos hpos]
    exact ⟨rfl, statusByte_busy, rfl, rfl⟩
  case ignored => exact if_pos hb
  case progress =>
    obtain ⟨rfl, rfl⟩ | ⟨rfl, rfl⟩ | ⟨off, rfl, rfl⟩ | ⟨off, v, rfl, -, rfl⟩ | ⟨v, rfl, hidle, rfl⟩ |
      ⟨off, v, rfl, hidle, -, rfl⟩ := latStep_cases h
    case inl =>
      obtain ⟨hidle, -⟩ | ⟨f, -, -, htick⟩ | ⟨f, hf, -, htick⟩ := latTick_cases l
      · exact absurd (hb.symm.trans hidle) Bool.noConfusion
      · rw [htick] at hb'
        exact absurd hb' Bool.false_ne_true
      · rw [htick, hf]
        rw [latReadByte, hb] at hstatus
        exact ⟨hstatus, rfl, rfl⟩
    case inr.inl => exact absurd hb' Bool.false_ne_true
    case inr.inr.inl => exact ⟨hstatus, rfl, rfl⟩
    case inr.inr.inr.inl => exact ⟨hstatus, rfl, rfl⟩
    case inr.inr.inr.inr.inl => exact absurd (hb.symm.trans hidle) Bool.noConfusion
    case inr.inr.inr.inr.inr => exact absurd (hb.symm.trans hidle) Bool.noConfusion

/-- Settles O54: a tick, a start and a read each keep the invariant, an ignored write changes nothing, and reset and
stores leave no command in progress. -/
theorem latencyKeepsInv : Obligations.LatencyKeepsInv := by
  refine ⟨fun e l l' hinv h => ?event, fun c => latInv_of_idle rfl blockInv_reset⟩
  obtain ⟨-, rfl⟩ | ⟨-, rfl⟩ | ⟨off, -, rfl⟩ | ⟨off, v, -, -, rfl⟩ | ⟨v, -, hb, rfl⟩ |
    ⟨off, v, -, hb, -, rfl⟩ := latStep_cases h
  case inl => exact hinv.latTick
  case inr.inl => exact latInv_of_idle rfl blockInv_reset
  case inr.inr.inl => exact hinv.with_reads _
  case inr.inr.inr.inl => exact hinv
  case inr.inr.inr.inr.inl => exact hinv.latStart v
  case inr.inr.inr.inr.inr => exact latInv_of_idle hb ((hinv.blockInv_of_idle hb).storeWindow off v)

/-- Settles O55: with `LATENCY` = 0 the CMD write completes the command, and else its ticks count down from
`LATENCY`. -/
theorem completesAfterLatency : Obligations.CompletesAfterLatency := by
  intro l l' v hb h
  rw [latStep_cmd hb] at h
  cases h
  rw [hostStep_cmd, ← settled_latStart]
  obtain hzero | hpos := Nat.eq_zero_or_pos l.arch.config.latency
  · rw [hzero, latStart_of_latency_zero hzero, settled_of_idle (busy_latFinish _ _)]
    exact ⟨fun k hk => absurd hk k.not_lt_zero, _, rfl, rfl, rfl⟩
  · have hinflight : (latStart v l).inflight =
        some { left := l.arch.config.latency, byte := v, inputs := snapshot l.arch.block } := by
      rw [latStart_of_latency_pos hpos]
    obtain ⟨m, hm, hidle, harch⟩ := latRun_ticks_left hinflight hpos
    exact ⟨fun k hk => ⟨_, latRun_ticks_of_lt hinflight hk, rfl⟩, m, hm, hidle, by rw [harch]⟩

/-- Settles O56: the implementation's events, ticks and polls left out, move the atomic machine from one settled state
to the next. -/
theorem dutifulHostSeesAtomic : Obligations.DutifulHostSeesAtomic := by
  intro es l l' hduty h
  obtain ⟨t, ht, ⟨hblock, hconfig⟩, hreads⟩ := latRun_simulation (s := settled l) hduty h ⟨rfl, rfl⟩
  rw [settled_reads] at hreads
  exact ⟨t, ht, hblock, hconfig, hreads⟩

end Sys2Proof.Latency
end
